-- ==== Sys2Proof/Word.lean ====
section
/-! DEFINITION. The bit-vector types of the machine and the notation of 00_scope.md: `trunc_8`, `trunc_16`,
`zext_16` (R12) and concatenation (R11). -/

namespace Sys2Proof

/-- A memory byte or a general register (R20, R50). -/
abbrev Byte := BitVec 8

/-- A 16-bit word: an opcode, `I`, `pc`, a return address (R23, R24, R26, R70). -/
abbrev Word := BitVec 16

/-- A 4-bit field of an opcode (R72). -/
abbrev Nibble := BitVec 4

/-- The 12-bit field `nnn` (R72, R84). -/
abbrev Addr12 := BitVec 12

/-- The number of a general register, V0..VF (R20). -/
abbrev RegIdx := Fin 16

/-- The number of a keypad key, 0x0..0xF (R31). -/
abbrev KeyIdx := Fin 16

/-- `trunc_8(v)` = v mod 256, of an exact integer (R12). -/
def trunc8 (v : Int) : Byte := BitVec.ofInt 8 v

/-- `trunc_16(v)` = v mod 65536, of an exact integer (R12). -/
def trunc16 (v : Int) : Word := BitVec.ofInt 16 v

/-- `zext_16(v)` of a value of any narrower width (R12, R84). -/
def zext16 {w : Nat} (v : BitVec w) : Word := v.setWidth 16

/-- A comparison's value: 1 for true and 0 for false (R12, R131). -/
def bit (c : Bool) : Byte := if c then 1 else 0

end Sys2Proof
end

