-- ==== Sys2Proof/Syntax.lean ====
section
/-! DEFINITION. The instructions: one constructor for each of the 44 rows of spec/opcode_table.json (R81).
A constructor keeps every bit of its word, the ignored ones too (an ignored nibble is the last `pad` argument), so
that the word can be given back whole: a fault record holds the fetched word (R242) and the trace shows it (R264). -/

namespace Sys2Proof

/-- An instruction, as the decoder reads it (R70 to R88). -/
inductive Instr where
  /-- 00E0 CLS; bits 11:8 are ignored (R76, R200). -/
  | cls (pad : Nibble)
  /-- 00EE RET; bits 11:8 are ignored (R76, R101). -/
  | ret (pad : Nibble)
  /-- 0NNN SYS nnn, for a low byte other than E0 and EE (R76, R102). -/
  | sys (nnn : Addr12)
  /-- 1NNN JP nnn (R103). -/
  | jp (nnn : Addr12)
  /-- 2NNN CALL nnn (R104). -/
  | call (nnn : Addr12)
  /-- 3XNN SE Vx, nn (R120). -/
  | seImm (x : RegIdx) (nn : Byte)
  /-- 4XNN SNE Vx, nn (R121). -/
  | sneImm (x : RegIdx) (nn : Byte)
  /-- 5XY0 SE Vx, Vy; n is ignored (R80, R122). -/
  | seReg (x y : RegIdx) (pad : Nibble)
  /-- 6XNN LD Vx, nn (R140). -/
  | ldImm (x : RegIdx) (nn : Byte)
  /-- 7XNN ADD Vx, nn (R141). -/
  | addImm (x : RegIdx) (nn : Byte)
  /-- 8XY0 LD Vx, Vy (R142). -/
  | ldReg (x y : RegIdx)
  /-- 8XY1 OR Vx, Vy (R143). -/
  | orReg (x y : RegIdx)
  /-- 8XY2 AND Vx, Vy (R144). -/
  | andReg (x y : RegIdx)
  /-- 8XY3 XOR Vx, Vy (R145). -/
  | xorReg (x y : RegIdx)
  /-- 8XY4 ADD Vx, Vy (R146). -/
  | addReg (x y : RegIdx)
  /-- 8XY5 SUB Vx, Vy (R147). -/
  | subReg (x y : RegIdx)
  /-- 8XY6 SHR Vx; y is decoded but not used (R148). -/
  | shr (x y : RegIdx)
  /-- 8XY7 SUBN Vx, Vy (R149). -/
  | subnReg (x y : RegIdx)
  /-- 8XYE SHL Vx; y is decoded but not used (R150). -/
  | shl (x y : RegIdx)
  /-- 8XY8 UNDEF (R82). -/
  | undef8XY8 (x y : RegIdx)
  /-- 8XY9 UNDEF (R82). -/
  | undef8XY9 (x y : RegIdx)
  /-- 8XYA UNDEF (R82). -/
  | undef8XYA (x y : RegIdx)
  /-- 8XYB UNDEF (R82). -/
  | undef8XYB (x y : RegIdx)
  /-- 8XYC UNDEF (R82). -/
  | undef8XYC (x y : RegIdx)
  /-- 8XYD UNDEF (R82). -/
  | undef8XYD (x y : RegIdx)
  /-- 8XYF UNDEF (R82). -/
  | undef8XYF (x y : RegIdx)
  /-- 9XY0 SNE Vx, Vy; n is ignored (R80, R123). -/
  | sneReg (x y : RegIdx) (pad : Nibble)
  /-- ANNN LD I, nnn (R180). -/
  | ldI (nnn : Addr12)
  /-- BNNN JP V0, nnn (R105). -/
  | jpV0 (nnn : Addr12)
  /-- CXNN RND Vx, nn (R160). -/
  | rnd (x : RegIdx) (nn : Byte)
  /-- DXYN DRW Vx, Vy, n (R201). -/
  | drw (x y : RegIdx) (n : Nibble)
  /-- EX9E SKP Vx (R124). -/
  | skp (x : RegIdx)
  /-- EXA1 SKNP Vx (R125). -/
  | sknp (x : RegIdx)
  /-- EXNN UNDEF, for a low byte other than 9E and A1 (R78, R82). -/
  | undefE (x : RegIdx) (nn : Byte)
  /-- FX07 LD Vx, DT (R220). -/
  | ldVxDT (x : RegIdx)
  /-- FX0A LD Vx, K (R221). -/
  | ldVxK (x : RegIdx)
  /-- FX15 LD DT, Vx (R222). -/
  | ldDTVx (x : RegIdx)
  /-- FX18 LD ST, Vx (R223). -/
  | ldSTVx (x : RegIdx)
  /-- FX1E ADD I, Vx (R181). -/
  | addI (x : RegIdx)
  /-- FX29 LD F, Vx (R183). -/
  | ldF (x : RegIdx)
  /-- FX33 LD B, Vx (R184). -/
  | ldB (x : RegIdx)
  /-- FX55 LD [I], Vx (R185). -/
  | store (x : RegIdx)
  /-- FX65 LD Vx, [I] (R186). -/
  | load (x : RegIdx)
  /-- FXNN UNDEF, for a low byte that no other row of family F has (R79, R82). -/
  | undefF (x : RegIdx) (nn : Byte)
deriving DecidableEq, Repr

end Sys2Proof
end

