-- ==== Sys2Proof/WellFormed.lean ====
section
/-! DEFINITION. Which instructions a word can decode to. The widths of the fields are in their types; what is left
is that a row with the lower priority of the opcode table (SYS, UNDEF in families E and F) does not hold the low byte
of another row of its family (R76, R78, R79). -/

namespace Sys2Proof

/-- The low bytes that family 0xF gives an operation (R79). -/
def definedF : List Byte := [0x07, 0x0A, 0x15, 0x18, 0x1E, 0x29, 0x33, 0x55, 0x65]

/-- The low bytes that family 0xE gives an operation (R78). -/
def definedE : List Byte := [0x9E, 0xA1]

/-- The low bytes that family 0x0 gives an operation other than SYS (R76). -/
def definedZero : List Byte := [0xE0, 0xEE]

/-- The instruction is one that some word stands for. -/
def Instr.wf : Instr → Bool
  | .sys nnn => !definedZero.contains (nnn.setWidth 8)
  | .undefE _ nn => !definedE.contains nn
  | .undefF _ nn => !definedF.contains nn
  | .cls _ | .ret _ | .jp _ | .call _ | .seImm _ _ | .sneImm _ _ | .seReg _ _ _ | .ldImm _ _ | .addImm _ _
  | .ldReg _ _ | .orReg _ _ | .andReg _ _ | .xorReg _ _ | .addReg _ _ | .subReg _ _ | .shr _ _ | .subnReg _ _
  | .shl _ _ | .undef8XY8 _ _ | .undef8XY9 _ _ | .undef8XYA _ _ | .undef8XYB _ _ | .undef8XYC _ _
  | .undef8XYD _ _ | .undef8XYF _ _ | .sneReg _ _ _ | .ldI _ | .jpV0 _ | .rnd _ _ | .drw _ _ _ | .skp _ | .sknp _
  | .ldVxDT _ | .ldVxK _ | .ldDTVx _ | .ldSTVx _ | .addI _ | .ldF _ | .ldB _ | .store _ | .load _ => true

end Sys2Proof
end

