-- ==== Sys2Proof/Decode.lean ====
section
/-! DEFINITION. The decoder of 30_encoding.md, total on every 16-bit word (R74), its field record (R72, R86), the
opcode map R81 as data, the decoder on a list of bytes, and the encoder. -/

namespace Sys2Proof

/-! ### Fields (R72) -/

/-- opcode[15:12], the dispatch key (R72). -/
def family (opcode : Word) : Nibble := opcode.extractLsb' 12 4

/-- opcode[11:8] (R72). -/
def fieldX (opcode : Word) : Nibble := opcode.extractLsb' 8 4

/-- opcode[7:4] (R72). -/
def fieldY (opcode : Word) : Nibble := opcode.extractLsb' 4 4

/-- opcode[3:0] (R72). -/
def fieldN (opcode : Word) : Nibble := opcode.extractLsb' 0 4

/-- opcode[7:0] (R72). -/
def fieldNN (opcode : Word) : Byte := opcode.extractLsb' 0 8

/-- opcode[11:0] (R72). -/
def fieldNNN (opcode : Word) : Addr12 := opcode.extractLsb' 0 12

/-- The register that a 4-bit field names: every number exists (R20, R85). -/
def regOf (b : Nibble) : RegIdx := b.toFin

/-- The 4-bit field that names a register. -/
def bitsOf (r : RegIdx) : Nibble := BitVec.ofFin r

/-! ### The operation selector (R86) -/

/-- The 36 operations of R86: 35 instructions and UNDEF. -/
inductive Op where
  | CLS | RET | SYS | JP | CALL | SE_VX_NN | SNE_VX_NN | SE_VX_VY | LD_VX_NN | ADD_VX_NN | LD_VX_VY | OR | AND | XOR
  | ADD_VX_VY | SUB | SHR | SUBN | SHL | SNE_VX_VY | LD_I | JP_V0 | RND | DRW | SKP | SKNP | LD_VX_DT | LD_VX_K
  | LD_DT_VX | LD_ST_VX | ADD_I_VX | LD_F_VX | LD_B_VX | LD_MEM_VX | LD_VX_MEM | UNDEF
deriving DecidableEq, Repr

/-- The operation an instruction is a form of (R86). -/
def Instr.op : Instr → Op
  | .cls _ => .CLS
  | .ret _ => .RET
  | .sys _ => .SYS
  | .jp _ => .JP
  | .call _ => .CALL
  | .seImm _ _ => .SE_VX_NN
  | .sneImm _ _ => .SNE_VX_NN
  | .seReg _ _ _ => .SE_VX_VY
  | .ldImm _ _ => .LD_VX_NN
  | .addImm _ _ => .ADD_VX_NN
  | .ldReg _ _ => .LD_VX_VY
  | .orReg _ _ => .OR
  | .andReg _ _ => .AND
  | .xorReg _ _ => .XOR
  | .addReg _ _ => .ADD_VX_VY
  | .subReg _ _ => .SUB
  | .shr _ _ => .SHR
  | .subnReg _ _ => .SUBN
  | .shl _ _ => .SHL
  | .undef8XY8 _ _ | .undef8XY9 _ _ | .undef8XYA _ _ | .undef8XYB _ _ | .undef8XYC _ _ | .undef8XYD _ _
  | .undef8XYF _ _ | .undefE _ _ | .undefF _ _ => .UNDEF
  | .sneReg _ _ _ => .SNE_VX_VY
  | .ldI _ => .LD_I
  | .jpV0 _ => .JP_V0
  | .rnd _ _ => .RND
  | .drw _ _ _ => .DRW
  | .skp _ => .SKP
  | .sknp _ => .SKNP
  | .ldVxDT _ => .LD_VX_DT
  | .ldVxK _ => .LD_VX_K
  | .ldDTVx _ => .LD_DT_VX
  | .ldSTVx _ => .LD_ST_VX
  | .addI _ => .ADD_I_VX
  | .ldF _ => .LD_F_VX
  | .ldB _ => .LD_B_VX
  | .store _ => .LD_MEM_VX
  | .load _ => .LD_VX_MEM

/-! ### Dispatch (R75 to R80) -/

/-- Family 0x0 selects on nn and ignores x (R76). -/
def decodeFamily0 (x : Nibble) (nn : Byte) (nnn : Addr12) : Instr :=
  if nn = 0xE0 then .cls x
  else if nn = 0xEE then .ret x
  else .sys nnn

/-- Family 0x8 selects on n (R77, R82). -/
def decodeFamily8 (x y : RegIdx) (n : Nibble) : Instr :=
  match n.toNat with
  | 0x0 => .ldReg x y
  | 0x1 => .orReg x y
  | 0x2 => .andReg x y
  | 0x3 => .xorReg x y
  | 0x4 => .addReg x y
  | 0x5 => .subReg x y
  | 0x6 => .shr x y
  | 0x7 => .subnReg x y
  | 0x8 => .undef8XY8 x y
  | 0x9 => .undef8XY9 x y
  | 0xA => .undef8XYA x y
  | 0xB => .undef8XYB x y
  | 0xC => .undef8XYC x y
  | 0xD => .undef8XYD x y
  | 0xE => .shl x y
  | _ => .undef8XYF x y

/-- Family 0xE selects on nn (R78, R82). -/
def decodeFamilyE (x : RegIdx) (nn : Byte) : Instr :=
  if nn = 0x9E then .skp x
  else if nn = 0xA1 then .sknp x
  else .undefE x nn

/-- Family 0xF selects on nn (R79, R82). -/
def decodeFamilyF (x : RegIdx) (nn : Byte) : Instr :=
  if nn = 0x07 then .ldVxDT x
  else if nn = 0x0A then .ldVxK x
  else if nn = 0x15 then .ldDTVx x
  else if nn = 0x18 then .ldSTVx x
  else if nn = 0x1E then .addI x
  else if nn = 0x29 then .ldF x
  else if nn = 0x33 then .ldB x
  else if nn = 0x55 then .store x
  else if nn = 0x65 then .load x
  else .undefF x nn

/-- Dispatch on the family, with the fields split out (R75, R80). -/
def decodeFields (family x y n : Nibble) (nn : Byte) (nnn : Addr12) : Instr :=
  match family.toNat with
  | 0x0 => decodeFamily0 x nn nnn
  | 0x1 => .jp nnn
  | 0x2 => .call nnn
  | 0x3 => .seImm (regOf x) nn
  | 0x4 => .sneImm (regOf x) nn
  | 0x5 => .seReg (regOf x) (regOf y) n
  | 0x6 => .ldImm (regOf x) nn
  | 0x7 => .addImm (regOf x) nn
  | 0x8 => decodeFamily8 (regOf x) (regOf y) n
  | 0x9 => .sneReg (regOf x) (regOf y) n
  | 0xA => .ldI nnn
  | 0xB => .jpV0 nnn
  | 0xC => .rnd (regOf x) nn
  | 0xD => .drw (regOf x) (regOf y) n
  | 0xE => decodeFamilyE (regOf x) nn
  | _ => decodeFamilyF (regOf x) nn

/-- The decoder: every 16-bit word is an instruction (R72, R74). -/
def decodeWord (w : Word) : Instr :=
  decodeFields (family w) (fieldX w) (fieldY w) (fieldN w) (fieldNN w) (fieldNNN w)

/-- The decoder's output to the execution logic (R86). -/
structure DecodeRecord where
  opcode : Word
  family : Nibble
  x : Nibble
  y : Nibble
  n : Nibble
  nn : Byte
  nnn : Addr12
  op : Op
deriving DecidableEq, Repr

/-- The record the decoder gives for a word (R72, R86). -/
def decodeRecord (w : Word) : DecodeRecord :=
  { opcode := w, family := family w, x := fieldX w, y := fieldY w, n := fieldN w, nn := fieldNN w,
    nnn := fieldNNN w, op := (decodeWord w).op }

/-! ### The opcode map as data (R81) -/

/-- One line of the opcode map: a word belongs to it when it agrees with `value` in the bits of `mask`. -/
structure OpRow where
  mask : Word
  value : Word
  op : Op
deriving DecidableEq, Repr

/-- Whether a word has the bits of a line of the map. -/
def OpRow.covers (r : OpRow) (w : Word) : Bool := w &&& r.mask == r.value

/-- Families 0x0 to 0x7 of R81, in its order: the first matching line gives the operation. -/
def opRowsLow : List OpRow :=
  [⟨0xF0FF, 0x00E0, .CLS⟩, ⟨0xF0FF, 0x00EE, .RET⟩, ⟨0xF000, 0x0000, .SYS⟩, ⟨0xF000, 0x1000, .JP⟩,
   ⟨0xF000, 0x2000, .CALL⟩, ⟨0xF000, 0x3000, .SE_VX_NN⟩, ⟨0xF000, 0x4000, .SNE_VX_NN⟩, ⟨0xF000, 0x5000, .SE_VX_VY⟩,
   ⟨0xF000, 0x6000, .LD_VX_NN⟩, ⟨0xF000, 0x7000, .ADD_VX_NN⟩]

/-- Family 0x8 of R81. -/
def opRows8 : List OpRow :=
  [⟨0xF00F, 0x8000, .LD_VX_VY⟩, ⟨0xF00F, 0x8001, .OR⟩, ⟨0xF00F, 0x8002, .AND⟩, ⟨0xF00F, 0x8003, .XOR⟩,
   ⟨0xF00F, 0x8004, .ADD_VX_VY⟩, ⟨0xF00F, 0x8005, .SUB⟩, ⟨0xF00F, 0x8006, .SHR⟩, ⟨0xF00F, 0x8007, .SUBN⟩,
   ⟨0xF00F, 0x800E, .SHL⟩, ⟨0xF000, 0x8000, .UNDEF⟩]

/-- Families 0x9 to 0xE of R81. -/
def opRowsMid : List OpRow :=
  [⟨0xF000, 0x9000, .SNE_VX_VY⟩, ⟨0xF000, 0xA000, .LD_I⟩, ⟨0xF000, 0xB000, .JP_V0⟩, ⟨0xF000, 0xC000, .RND⟩,
   ⟨0xF000, 0xD000, .DRW⟩, ⟨0xF0FF, 0xE09E, .SKP⟩, ⟨0xF0FF, 0xE0A1, .SKNP⟩, ⟨0xF000, 0xE000, .UNDEF⟩]

/-- Family 0xF of R81. -/
def opRowsF : List OpRow :=
  [⟨0xF0FF, 0xF007, .LD_VX_DT⟩, ⟨0xF0FF, 0xF00A, .LD_VX_K⟩, ⟨0xF0FF, 0xF015, .LD_DT_VX⟩, ⟨0xF0FF, 0xF018, .LD_ST_VX⟩,
   ⟨0xF0FF, 0xF01E, .ADD_I_VX⟩, ⟨0xF0FF, 0xF029, .LD_F_VX⟩, ⟨0xF0FF, 0xF033, .LD_B_VX⟩, ⟨0xF0FF, 0xF055, .LD_MEM_VX⟩,
   ⟨0xF0FF, 0xF065, .LD_VX_MEM⟩, ⟨0xF000, 0xF000, .UNDEF⟩]

/-- The opcode map R81. -/
def opRows : List OpRow := opRowsLow ++ opRows8 ++ opRowsMid ++ opRowsF

/-- The operation of the first matching line (R81), or none where no line matches. -/
def mapOp (w : Word) : Option Op := (opRows.find? (·.covers w)).map (·.op)

/-! ### The decoder on bytes -/

/-- Why a list of bytes holds no instruction. -/
inductive DecodeError where
  /-- Fewer bytes than the two of an instruction (R70). No 16-bit word is refused (R74). -/
  | truncated
deriving DecidableEq, Repr

/-- Decode the instruction at the head of a list of bytes, the high byte first (R54), and give the rest back. -/
def decode : List Byte → Except DecodeError (Instr × List Byte)
  | hi :: lo :: rest => .ok (decodeWord (hi ++ lo), rest)
  | _ => .error .truncated

/-- The bytes of a word as memory holds them: the high byte at the lower address (R54). -/
def wordBytes (w : Word) : List Byte := [w.extractLsb' 8 8, w.extractLsb' 0 8]

/-- The instruction the decoder reads from a word of the opcode table, whose bit 0 is the least significant bit;
only the low `nbits` bits of `w` count. -/
def decodeTableWord (nbits w : Nat) : Option Instr :=
  match decode (wordBytes (BitVec.ofNat 16 (w % 2 ^ nbits))) with
  | .ok (i, _) => some i
  | .error _ => none

/-! ### The encoder -/

/-- A word from its four nibbles (R70). -/
def wordXYN (f x y n : Nibble) : Word := f ++ x ++ y ++ n

/-- A word from family, x and nn (R70). -/
def wordXNN (f x : Nibble) (nn : Byte) : Word := f ++ x ++ nn

/-- A word from family and nnn (R70). -/
def wordNNN (f : Nibble) (nnn : Addr12) : Word := f ++ nnn

/-- A word of family 0x8. -/
def word8 (x y : RegIdx) (n : Nibble) : Word := wordXYN 0x8 (bitsOf x) (bitsOf y) n

/-- A word of family 0xE. -/
def wordE (x : RegIdx) (nn : Byte) : Word := wordXNN 0xE (bitsOf x) nn

/-- A word of family 0xF. -/
def wordF (x : RegIdx) (nn : Byte) : Word := wordXNN 0xF (bitsOf x) nn

/-- The word of an instruction, from the patterns of spec/opcode_table.json. -/
def encode : Instr → Word
  | .cls pad => wordXNN 0x0 pad 0xE0
  | .ret pad => wordXNN 0x0 pad 0xEE
  | .sys nnn => wordNNN 0x0 nnn
  | .jp nnn => wordNNN 0x1 nnn
  | .call nnn => wordNNN 0x2 nnn
  | .seImm x nn => wordXNN 0x3 (bitsOf x) nn
  | .sneImm x nn => wordXNN 0x4 (bitsOf x) nn
  | .seReg x y pad => wordXYN 0x5 (bitsOf x) (bitsOf y) pad
  | .ldImm x nn => wordXNN 0x6 (bitsOf x) nn
  | .addImm x nn => wordXNN 0x7 (bitsOf x) nn
  | .ldReg x y => word8 x y 0x0
  | .orReg x y => word8 x y 0x1
  | .andReg x y => word8 x y 0x2
  | .xorReg x y => word8 x y 0x3
  | .addReg x y => word8 x y 0x4
  | .subReg x y => word8 x y 0x5
  | .shr x y => word8 x y 0x6
  | .subnReg x y => word8 x y 0x7
  | .shl x y => word8 x y 0xE
  | .undef8XY8 x y => word8 x y 0x8
  | .undef8XY9 x y => word8 x y 0x9
  | .undef8XYA x y => word8 x y 0xA
  | .undef8XYB x y => word8 x y 0xB
  | .undef8XYC x y => word8 x y 0xC
  | .undef8XYD x y => word8 x y 0xD
  | .undef8XYF x y => word8 x y 0xF
  | .sneReg x y pad => wordXYN 0x9 (bitsOf x) (bitsOf y) pad
  | .ldI nnn => wordNNN 0xA nnn
  | .jpV0 nnn => wordNNN 0xB nnn
  | .rnd x nn => wordXNN 0xC (bitsOf x) nn
  | .drw x y n => wordXYN 0xD (bitsOf x) (bitsOf y) n
  | .skp x => wordE x 0x9E
  | .sknp x => wordE x 0xA1
  | .undefE x nn => wordE x nn
  | .ldVxDT x => wordF x 0x07
  | .ldVxK x => wordF x 0x0A
  | .ldDTVx x => wordF x 0x15
  | .ldSTVx x => wordF x 0x18
  | .addI x => wordF x 0x1E
  | .ldF x => wordF x 0x29
  | .ldB x => wordF x 0x33
  | .store x => wordF x 0x55
  | .load x => wordF x 0x65
  | .undefF x nn => wordF x nn

end Sys2Proof
end

