-- ==== Sys2Proof/Config.lean ====
section
/-! DEFINITION. What is fixed for a machine and the free values the spec leaves open (00_scope.md R8). FONT, ROM and
STEPS_PER_SLICE are data of `Machine.Params`; here stand FONT's default table and the constants without a body, of
which nothing can be proved. -/

namespace Sys2Proof.Config

/-- Glyphs 0 to 7 of the default FONT of 92_eei_decisions.md D21. PRESUMED (log entry 2), unsafe. -/
def fontLow : Vector Byte 40 :=
  #v[0xF0, 0x90, 0x90, 0x90, 0xF0, 0x20, 0x60, 0x20, 0x20, 0x70, 0xF0, 0x10, 0xF0, 0x80, 0xF0, 0xF0, 0x10, 0xF0, 0x10, 0xF0,
     0x90, 0x90, 0xF0, 0x10, 0x10, 0xF0, 0x80, 0xF0, 0x10, 0xF0, 0xF0, 0x80, 0xF0, 0x90, 0xF0, 0xF0, 0x10, 0x20, 0x40, 0x40]

/-- Glyphs 8 to F of the default FONT of 92_eei_decisions.md D21. PRESUMED (log entry 2), unsafe. -/
def fontHigh : Vector Byte 40 :=
  #v[0xF0, 0x90, 0xF0, 0x90, 0xF0, 0xF0, 0x90, 0xF0, 0x10, 0xF0, 0xF0, 0x90, 0xF0, 0x90, 0x90, 0xE0, 0x90, 0xE0, 0x90, 0xE0,
     0xF0, 0x80, 0x80, 0x80, 0xF0, 0xE0, 0x90, 0x90, 0x90, 0xE0, 0xF0, 0x80, 0xF0, 0x80, 0xF0, 0xF0, 0x80, 0xF0, 0x80, 0x80]

/-- The default FONT: 16 glyphs of 5 bytes (R7, D21). PRESUMED (log entry 2), unsafe: a claim about glyph pixels
must name it. -/
def font : Vector Byte 80 := fontLow ++ fontHigh

/-- RAND (R8, R160, D16): the byte of the k-th draw, a free value under no law. Log entry 4, safe. -/
opaque rand : Nat → Byte

/-- KEY_SELECT (R8, R221, D14): which of the pressed keys the k-th draw takes, as an index into their list, used
modulo its length; a free value. Log entry 5, safe. -/
opaque keySelect : Nat → List KeyIdx → Nat

/-- The human-readable text of a trace record (R264, U13): a free value; no rule depends on it. Log entry 18, safe. -/
opaque traceText : Word → Word → String

end Sys2Proof.Config
end

