-- ==== Sys2Proof/Machine/State.lean ====
section
/-! DEFINITION. The machine's state, as plain data: the block (10_state.md R42), the host-side sequencer that drives
it (60_exceptions.md R270 to R275), the parameters of 00_scope.md R8, and two counters of the model's own for the free
values. -/

namespace Sys2Proof.Machine

/-- Why the machine stops with an outcome `fault`: never. The model faults of R241 are state, not stops: an
instruction that raises one takes a next state whose `fault` register holds the record (R242 to R244; log entry 1), and
the block itself never stops (R276). So this type has no constructor. Safe. -/
inductive Fault where
deriving DecidableEq, Repr

/-- Why an instruction has no meaning. -/
inductive Refusal where
  /-- The instruction is not modelled yet. No arm of `exec` answers it: every row of the opcode table has its
  meaning. Safe. -/
  | notModelled (mnemonic : String)
deriving DecidableEq, Repr

/-- The kinds of model fault (R34, R241). -/
inductive FaultKind where
  /-- 2NNN with sp = 12. -/
  | StackOverflow
  /-- 00EE with sp = 0. -/
  | StackUnderflow
  /-- A fetch with pc > 0xFFE. -/
  | FetchOutOfRange
  /-- DXYN, FX33, FX55 or FX65 with an accessed address above 0xFFF. -/
  | DataOutOfRange
  /-- EX9E or EXA1 with V[x] > 0xF. -/
  | KeyIndexOutOfRange
deriving DecidableEq, Repr

/-- The record the fault register holds (R34, R242). -/
structure FaultRecord where
  /-- What went wrong. -/
  kind : FaultKind
  /-- The address of the faulting instruction. -/
  pc : Word
  /-- The fetched word, or 0 when the fetch itself failed. -/
  opcode : Word
  /-- The value named in the `raise`, an exact number (R241). -/
  info : Nat
deriving DecidableEq, Repr

/-- The sequencer's state (R35, R270). -/
inductive RunState where
  | Running
  | Paused
  | Quit
deriving DecidableEq, Repr

/-- An external signal (R270). -/
inductive Signal where
  | quit
  | pauseToggle
  | reset
deriving DecidableEq, Repr

/-- What the host delivers in one input poll: sets and clears of keypad keys, in order, and signals in the order the
host raised them (R263, R271, R275). -/
structure Poll where
  keys : List (KeyIdx × Bool)
  signals : List Signal
deriving DecidableEq, Repr

/-- The parameters of R8 that are data: no event changes them. -/
structure Params where
  /-- FONT: 16 glyphs of 5 bytes (R7). -/
  font : Vector Byte 80
  /-- ROM: the program bytes; a program of the machine has at most 3584 (R7, R282). -/
  rom : List Byte
  /-- STEPS_PER_SLICE: a positive number (R273). -/
  stepsPerSlice : Nat
deriving DecidableEq, Repr

/-- Memory as the list of the cells that differ from what an unlisted address reads as (log entry 17). -/
abbrev Memory := List Host.Cell

/-- One row of the framebuffer: the cell at column c is bit c (R30; log entry 16). -/
abbrev DispRow := BitVec 64

/-- The framebuffer: 32 rows of 64 one-bit cells (R30; log entry 16). -/
abbrev Display := Vector DispRow 32

/-- Everything the spec gives the machine (R42, R35), and the model's own two draw counters. -/
structure State where
  /-- General registers V0..VF (R20). -/
  V : Vector Byte 16
  /-- Index register (R23). -/
  I : Word
  /-- Program counter (R24). -/
  pc : Word
  /-- Stack pointer: the number of entries in use, 0..12 (R26). -/
  sp : Fin 13
  /-- Return addresses (R26). -/
  stack : Vector Word 12
  /-- Delay timer (R28). -/
  DT : Byte
  /-- Sound timer (R29). -/
  ST : Byte
  /-- Display framebuffer (R30). -/
  disp : Display
  /-- Keypad: true for pressed (R31). -/
  key : Vector Bool 16
  /-- The 4096-byte memory (R50). -/
  mem : Memory
  /-- The display changed since the last acknowledge (R32). -/
  dirty : Bool
  /-- Tone output (R33). -/
  tone : Bool
  /-- The fault register (R34). -/
  fault : Option FaultRecord
  /-- The sequencer's `run_state` (R35, R270). -/
  runState : RunState
  /-- How many `step` events the current slice still has (R271). -/
  stepsLeft : Nat
  /-- The host's coming input polls, oldest first; where there is none, a poll delivers nothing (R271; log entry 8). -/
  inbox : List Poll
  /-- FONT, ROM and STEPS_PER_SLICE (R8). -/
  params : Params
  /-- The model's own: how many RAND draws there were (log entry 4). -/
  randDraws : Nat
  /-- The model's own: how many KEY_SELECT draws there were (log entry 5). -/
  keyDraws : Nat
deriving DecidableEq, Repr

/-- The parameters of `State.reset`: the default FONT (PRESUMED, log entry 2, unsafe), no program (DESIGN CHOICE, log
entry 10) and 16 steps a slice (DESIGN CHOICE, log entry 3, unsafe). -/
def Params.default : Params := { font := Config.font, rom := [], stepsPerSlice := 16 }

/-- The machine right after reset (R38), with the parameters of `Params.default`. -/
def State.reset : State :=
  { V := Vector.replicate 16 0
    I := 0
    pc := 0x200
    sp := 0
    stack := Vector.replicate 12 0
    DT := 0
    ST := 0
    disp := Vector.replicate 32 0
    key := Vector.replicate 16 false
    mem := []
    dirty := false
    tone := false
    fault := none
    runState := .Running
    stepsLeft := Params.default.stepsPerSlice
    inbox := []
    params := Params.default
    randDraws := 0
    keyDraws := 0 }

end Sys2Proof.Machine
end

