-- ==== Sys2Proof/Machine/Ops.lean ====
section
/-! DEFINITION. The named operations over registers, memory, the stack and the framebuffer, and raising a model fault
(60_exceptions.md R242, R243). The meanings of the instructions are written over these. -/

namespace Sys2Proof.Machine

/-! ### Registers (R13, R20, R24) -/

/-- VF, the flag register (R21). -/
def VF : RegIdx := 15

/-- `V[r]` (R13). -/
def State.reg (s : State) (r : RegIdx) : Byte := s.V[r.val]'r.isLt

/-- `V[r] <- b` (R13). -/
def State.setReg (s : State) (r : RegIdx) (b : Byte) : State := { s with V := s.V.set r.val b r.isLt }

/-- `I <- w`. -/
def State.setI (s : State) (w : Word) : State := { s with I := w }

/-- `pc <- w`. -/
def State.setPc (s : State) (w : Word) : State := { s with pc := w }

/-- `pc <- trunc_16(pc + 2)`: the advance of a fetch (R71) and a taken skip (R16). -/
def State.advancePc (s : State) : State := s.setPc (s.pc + 2)

/-- `pc <- trunc_16(pc - 2)`: the undone advance of FX0A (R221) and of a faulting instruction (R243). -/
def State.rewindPc (s : State) : State := s.setPc (s.pc - 2)

/-! ### Memory (R50 to R59) -/

/-- What an address that memory does not list reads as: the reset contents with no program, that is the default FONT
at 0x000..0x04F and zero elsewhere (R38, R51; log entries 2 and 17). -/
def Memory.blank (a : Nat) : Byte := if h : a < 80 then Config.font[a] else 0

/-- `MemRead(a, 1)` (R14, R59). -/
def Memory.read : Memory → Nat → Byte
  | [], a => Memory.blank a
  | (k, b) :: m, a => if k = a then b else Memory.read m a

/-- Put a cell in front of the first cell with a greater address. -/
def Memory.insert (c : Host.Cell) : Memory → Memory
  | [] => [c]
  | d :: m => if c.1 < d.1 then c :: d :: m else d :: Memory.insert c m

/-- `MemWrite(a, 1, b)` (R14, R59), keeping the canonical form. An address beyond 0xFFF has no byte; no instruction
writes one, since each checks its addresses first (R57). -/
def Memory.write (m : Memory) (a : Nat) (b : Byte) : Memory :=
  if a < 4096 then
    let rest := m.filter (fun c => c.1 != a)
    if b = Memory.blank a then rest else Memory.insert (a, b) rest
  else m

/-- Bytes written one after the other from address `a` up (R184, R185, R280). -/
def Memory.writeBytes (m : Memory) (a : Nat) : List Byte → Memory
  | [] => m
  | b :: bs => Memory.writeBytes (m.write a b) (a + 1) bs

/-- The canonical form: addresses strictly rising and inside the memory, and no cell equal to what an unlisted address
reads as. -/
abbrev Memory.wf (m : Memory) : Prop :=
  m.Pairwise (fun c d => c.1 < d.1) ∧ ∀ c ∈ m, c.1 < 4096 ∧ c.2 ≠ Memory.blank c.1

/-- The byte of memory at an address. -/
def State.readByte (s : State) (a : Nat) : Byte := s.mem.read a

/-- The lowest address above 0xFFF among the `count` addresses from `base` up, as exact integers with no wrap (R55,
R57). -/
def firstOutOfRange (base count : Nat) : Option Nat :=
  ((List.range count).map (fun k => base + k)).find? (fun a => 0xFFF < a)

/-! ### The fault register (R34, R242, R243) -/

/-- Record a fault; one already recorded is never replaced (R242). -/
def State.recordFault (s : State) (f : FaultRecord) : State :=
  match s.fault with
  | none => { s with fault := some f }
  | some _ => s

/-- `raise Fault(kind, info)` by an instruction: the advance is undone and the fault recorded, and nothing else
changes (R242, R243). Every meaning raises before its first write. -/
def raiseFault (i : Instr) (kind : FaultKind) (info : Nat) (s : State) : Host.Outcome State Fault Refusal :=
  let s := s.rewindPc
  .next (s.recordFault { kind := kind, pc := s.pc, opcode := encode i, info := info })

/-- An instruction's data access of `count` bytes from I up: DataOutOfRange with the lowest address out of range, or
the instruction's effect (R57, R182). -/
def guardData (i : Instr) (count : Nat) (s : State) (effect : State → State) : Host.Outcome State Fault Refusal :=
  match firstOutOfRange s.I.toNat count with
  | some a => raiseFault i .DataOutOfRange a s
  | none => .next (effect s)

/-! ### The stack (R26, R27) -/

/-- A push: write `stack[sp]`, then increment sp; none where sp = 12 (R26). -/
def State.push (s : State) (w : Word) : Option State :=
  if h : s.sp.val < 12 then
    some { s with stack := s.stack.set s.sp.val w h, sp := ⟨s.sp.val + 1, by omega⟩ }
  else none

/-- A pop: decrement sp, then read `stack[sp]`; the entry keeps its value; none where sp = 0 (R26, R27). -/
def State.pop (s : State) : Option (Word × State) :=
  if h : 0 < s.sp.val then
    some (s.stack[s.sp.val - 1]'(by omega), { s with sp := ⟨s.sp.val - 1, by omega⟩ })
  else none

/-! ### Framebuffer cells (R30) -/

/-- The cell at column `c` and row `r`; false outside the 64 by 32 cells, which no instruction reaches. -/
def Display.at (d : Display) (r c : Nat) : Bool := if h : r < 32 then d[r].getLsbD c else false

/-- `disp[k]` (R30): the cell at column k mod 64 and row k / 64. -/
def Display.cell (d : Display) (k : Nat) : Bool := Display.at d (k / 64) (k % 64)

/-- `disp[r*64 + c] <- disp[r*64 + c] ^ 1` (R201). -/
def Display.toggle (d : Display) (r c : Nat) : Display :=
  if h : r < 32 then d.set r (d[r] ^^^ BitVec.twoPow 64 c) h else d

/-- Every cell 0 (R38, R200). -/
def Display.clear : Display := Vector.replicate 32 0

end Sys2Proof.Machine
end

