-- ==== Sys2Proof/Machine/Flags.lean ====
section
/-! DEFINITION. The 8-bit ALU with its flag output (42_alu.md R130, R131) and the order in which result and flag are
written (R132). -/

namespace Sys2Proof.Machine

/-- The ALU's operations (R131). -/
inductive AluOp where
  | MOV | OR | AND | XOR | ADD | SUB | SUBN | SHR | SHL | ADDI
deriving DecidableEq, Repr

/-- The ALU's result and its flag, where the operation defines one (R131). -/
structure AluOut where
  r : Byte
  f : Option Bool
deriving DecidableEq, Repr

/-- `alu(op, a, b)` (R131): exact integers, reduced modulo 256 (R130). The second operand of ADDI is nn. A flag of SUB and
SUBN is the strict comparison (90_conflicts.md C1; log entry 12). -/
def alu (op : AluOp) (a b : Byte) : AluOut :=
  match op with
  | .MOV => { r := b, f := none }
  | .OR => { r := a ||| b, f := none }
  | .AND => { r := a &&& b, f := none }
  | .XOR => { r := a ^^^ b, f := none }
  | .ADD => { r := trunc8 (a.toNat + b.toNat), f := some (decide (255 < a.toNat + b.toNat)) }
  | .SUB => { r := trunc8 (a.toNat - b.toNat), f := some (decide (b.toNat < a.toNat)) }
  | .SUBN => { r := trunc8 (b.toNat - a.toNat), f := some (decide (a.toNat < b.toNat)) }
  | .SHR => { r := a >>> 1, f := some (a.getLsbD 0) }
  | .SHL => { r := trunc8 (a.toNat <<< 1 : Nat), f := some (a.getLsbD 7) }
  | .ADDI => { r := trunc8 (a.toNat + b.toNat), f := none }

/-- Write a flag to VF, where there is one (R39). -/
def State.setFlag (s : State) : Option Bool → State
  | none => s
  | some f => s.setReg VF (bit f)

/-- `V[x] <- r`, and VF last (R132; log entry 13). -/
def State.writeAlu (s : State) (x : RegIdx) (out : AluOut) : State := (s.setReg x out.r).setFlag out.f

/-- An ALU instruction: both operands are read first, then result and flag are written (R132). -/
def aluInstr (op : AluOp) (x : RegIdx) (b : Byte) (s : State) : Host.Outcome State Fault Refusal :=
  .next (s.writeAlu x (alu op (s.reg x) b))

end Sys2Proof.Machine
end

