-- ==== Sys2Proof/Machine/Alu.lean ====
section
/-! DEFINITION. Register loads, the ALU instructions and the random byte (42_alu.md). None of them can fault. -/

namespace Sys2Proof.Machine

/-- 6XNN LD Vx, nn (R140). -/
def execLdImm (x : RegIdx) (nn : Byte) (s : State) : Host.Outcome State Fault Refusal := .next (s.setReg x nn)

/-- 7XNN ADD Vx, nn: no flag (R141). -/
def execAddImm (x : RegIdx) (nn : Byte) (s : State) : Host.Outcome State Fault Refusal := aluInstr .ADDI x nn s

/-- 8XY0 LD Vx, Vy (R142). -/
def execLdReg (x y : RegIdx) (s : State) : Host.Outcome State Fault Refusal := aluInstr .MOV x (s.reg y) s

/-- 8XY1 OR Vx, Vy (R143). -/
def execOrReg (x y : RegIdx) (s : State) : Host.Outcome State Fault Refusal := aluInstr .OR x (s.reg y) s

/-- 8XY2 AND Vx, Vy (R144). -/
def execAndReg (x y : RegIdx) (s : State) : Host.Outcome State Fault Refusal := aluInstr .AND x (s.reg y) s

/-- 8XY3 XOR Vx, Vy (R145). -/
def execXorReg (x y : RegIdx) (s : State) : Host.Outcome State Fault Refusal := aluInstr .XOR x (s.reg y) s

/-- 8XY4 ADD Vx, Vy (R146). -/
def execAddReg (x y : RegIdx) (s : State) : Host.Outcome State Fault Refusal := aluInstr .ADD x (s.reg y) s

/-- 8XY5 SUB Vx, Vy (R147). -/
def execSubReg (x y : RegIdx) (s : State) : Host.Outcome State Fault Refusal := aluInstr .SUB x (s.reg y) s

/-- 8XY6 SHR Vx: V[x] is shifted, V[y] is not used (R148; log entry 15). -/
def execShr (x y : RegIdx) (s : State) : Host.Outcome State Fault Refusal := aluInstr .SHR x (s.reg y) s

/-- 8XY7 SUBN Vx, Vy (R149). -/
def execSubnReg (x y : RegIdx) (s : State) : Host.Outcome State Fault Refusal := aluInstr .SUBN x (s.reg y) s

/-- 8XYE SHL Vx: V[x] is shifted, V[y] is not used (R150; log entry 15). -/
def execShl (x y : RegIdx) (s : State) : Host.Outcome State Fault Refusal := aluInstr .SHL x (s.reg y) s

/-- CXNN RND Vx, nn: one RAND draw, a free value (R160, R265; log entry 4). -/
def execRnd (x : RegIdx) (nn : Byte) (s : State) : Host.Outcome State Fault Refusal :=
  .next { s.setReg x (Config.rand s.randDraws &&& nn) with randDraws := s.randDraws + 1 }

end Sys2Proof.Machine
end

