-- ==== Sys2Proof/Machine/Operands.lean ====
section
/-! DEFINITION. The operand forms: keypad keys, the font glyph address, register blocks and the decimal digits. -/

namespace Sys2Proof.Machine

/-- Whether key `k` is pressed (R13, R31). -/
def State.keyDown (s : State) (k : KeyIdx) : Bool := s.key[k.val]'k.isLt

/-- The set P of pressed keys of FX0A, in rising order (R221). -/
def State.pressed (s : State) : List KeyIdx := (List.finRange 16).filter s.keyDown

/-- `KEY_SELECT(P)`: one element of P (R221, D14). With one key pressed it is that key; with several, the free value
`Config.keySelect` decides (log entry 5). None where P is empty. -/
def selectKey (draw : Nat) : List KeyIdx → Option KeyIdx
  | [] => none
  | [k] => some k
  | P => P[Config.keySelect draw P % P.length]?

/-- A key index as a register holds it. -/
def keyByte (k : KeyIdx) : Byte := BitVec.ofNat 8 k.val

/-- `zext_16(v & 0xF) * 5`: the address of a glyph (R183). -/
def glyphAddr (v : Byte) : Word := trunc16 ((v &&& 0x0F).toNat * 5)

/-- Hundreds, tens and ones of a byte (R184). -/
def bcdDigits (v : Byte) : List Byte :=
  [BitVec.ofNat 8 (v.toNat / 100), BitVec.ofNat 8 (v.toNat / 10 % 10), BitVec.ofNat 8 (v.toNat % 10)]

/-- `V[0]..V[x]`, in order (R185). -/
def State.regBlock (s : State) (x : RegIdx) : List Byte := s.V.toList.take (x.val + 1)

/-- `V[k] <- MemRead(I + k, 1)` for k in 0..x (R186). -/
def State.loadBlock (s : State) (x : RegIdx) : State :=
  { s with V := Vector.ofFn fun k : Fin 16 => if k ≤ x then s.readByte (s.I.toNat + k.val) else s.reg k }

end Sys2Proof.Machine
end

