-- ==== Sys2Proof/Machine/Control.lean ====
section
/-! DEFINITION. Control transfer (40_control.md). pc already holds the instruction's address plus 2 (R71). -/

namespace Sys2Proof.Machine

/-- `pc <- target`; a target is not checked when it is loaded (R100). -/
def jumpTo (target : Word) (s : State) : Host.Outcome State Fault Refusal := .next (s.setPc target)

/-- 00EE RET (R101). -/
def execRet (pad : Nibble) (s : State) : Host.Outcome State Fault Refusal :=
  match s.pop with
  | none => raiseFault (.ret pad) .StackUnderflow s.sp.val s
  | some (w, s') => jumpTo w s'

/-- 0NNN SYS nnn, a jump (R102). -/
def execSys (nnn : Addr12) (s : State) : Host.Outcome State Fault Refusal := jumpTo (zext16 nnn) s

/-- 1NNN JP nnn (R103). -/
def execJp (nnn : Addr12) (s : State) : Host.Outcome State Fault Refusal := jumpTo (zext16 nnn) s

/-- 2NNN CALL nnn (R104). -/
def execCall (nnn : Addr12) (s : State) : Host.Outcome State Fault Refusal :=
  match s.push s.pc with
  | none => raiseFault (.call nnn) .StackOverflow s.sp.val s
  | some s' => jumpTo (zext16 nnn) s'

/-- BNNN JP V0, nnn: the sum is not reduced modulo 4096 (R105). -/
def execJpV0 (nnn : Addr12) (s : State) : Host.Outcome State Fault Refusal :=
  jumpTo (zext16 nnn + zext16 (s.reg 0)) s

end Sys2Proof.Machine
end

