-- ==== Sys2Proof/Machine/IndexMemory.lean ====
section
/-! DEFINITION. The index register and memory transfers (43_index_memory.md). No instruction here writes a flag or
changes I as a side effect of an access. -/

namespace Sys2Proof.Machine

/-- ANNN LD I, nnn (R180). -/
def execLdI (nnn : Addr12) (s : State) : Host.Outcome State Fault Refusal := .next (s.setI (zext16 nnn))

/-- FX1E ADD I, Vx: modulo 2^16, no flag (R181). -/
def execAddI (x : RegIdx) (s : State) : Host.Outcome State Fault Refusal :=
  .next (s.setI (trunc16 (s.I.toNat + (s.reg x).toNat)))

/-- FX29 LD F, Vx (R183). -/
def execLdF (x : RegIdx) (s : State) : Host.Outcome State Fault Refusal := .next (s.setI (glyphAddr (s.reg x)))

/-- FX33 LD B, Vx (R184). -/
def execLdB (x : RegIdx) (s : State) : Host.Outcome State Fault Refusal :=
  guardData (.ldB x) 3 s fun s => { s with mem := s.mem.writeBytes s.I.toNat (bcdDigits (s.reg x)) }

/-- FX55 LD [I], Vx (R185). -/
def execStore (x : RegIdx) (s : State) : Host.Outcome State Fault Refusal :=
  guardData (.store x) (x.val + 1) s fun s => { s with mem := s.mem.writeBytes s.I.toNat (s.regBlock x) }

/-- FX65 LD Vx, [I] (R186). -/
def execLoad (x : RegIdx) (s : State) : Host.Outcome State Fault Refusal :=
  guardData (.load x) (x.val + 1) s fun s => s.loadBlock x

end Sys2Proof.Machine
end

