-- ==== Sys2Proof/Machine/Skip.lean ====
section
/-! DEFINITION. Conditional skips (41_skip.md). A skip writes no register and no flag (R40). -/

namespace Sys2Proof.Machine

/-- Skip the next instruction where `c` holds (R16, R286). -/
def skipIf (c : Bool) (s : State) : Host.Outcome State Fault Refusal := .next (if c then s.advancePc else s)

/-- A skip on the state of the key that V[x] names, or KeyIndexOutOfRange (R124, R125). -/
def skipOnKey (i : Instr) (x : RegIdx) (down : Bool) (s : State) : Host.Outcome State Fault Refusal :=
  if h : (s.reg x).toNat < 16 then skipIf (s.keyDown ⟨(s.reg x).toNat, h⟩ == down) s
  else raiseFault i .KeyIndexOutOfRange (s.reg x).toNat s

/-- 3XNN SE Vx, nn (R120). -/
def execSeImm (x : RegIdx) (nn : Byte) (s : State) : Host.Outcome State Fault Refusal := skipIf (s.reg x == nn) s

/-- 4XNN SNE Vx, nn (R121). -/
def execSneImm (x : RegIdx) (nn : Byte) (s : State) : Host.Outcome State Fault Refusal := skipIf (s.reg x != nn) s

/-- 5XY0 SE Vx, Vy (R122). -/
def execSeReg (x y : RegIdx) (s : State) : Host.Outcome State Fault Refusal := skipIf (s.reg x == s.reg y) s

/-- 9XY0 SNE Vx, Vy (R123). -/
def execSneReg (x y : RegIdx) (s : State) : Host.Outcome State Fault Refusal := skipIf (s.reg x != s.reg y) s

/-- EX9E SKP Vx (R124). -/
def execSkp (x : RegIdx) (s : State) : Host.Outcome State Fault Refusal := skipOnKey (.skp x) x true s

/-- EXA1 SKNP Vx (R125). -/
def execSknp (x : RegIdx) (s : State) : Host.Outcome State Fault Refusal := skipOnKey (.sknp x) x false s

end Sys2Proof.Machine
end

