-- ==== Sys2Proof/Machine/Sprite.lean ====
section
/-! DEFINITION. The display framebuffer write engine (44_display.md): clear and the sprite draw with its collision
flag. -/

namespace Sys2Proof.Machine

/-- One sprite row: the bits `bits` of the byte `s`, most significant first, from column `ox` of row `ty`; the rest of
the row is dropped beyond column 63. The Bool is the collision so far (R201). -/
def drawBits (ox ty : Nat) (s : Byte) : List Nat → Display × Bool → Display × Bool
  | [], acc => acc
  | b :: bits, (d, c) =>
    if 63 < ox + (7 - b) then (d, c)
    else if s.getLsbD b then drawBits ox ty s bits (d.toggle ty (ox + (7 - b)), c || d.at ty (ox + (7 - b)))
    else drawBits ox ty s bits (d, c)

/-- The sprite rows `rows` of a sprite at address `base`, from row `oy`; later rows are dropped beyond row 31
(R201). -/
def drawRows (ox oy base : Nat) (m : Memory) : List Nat → Display × Bool → Display × Bool
  | [], acc => acc
  | r :: rows, acc =>
    if 31 < oy + r then acc
    else drawRows ox oy base m rows (drawBits ox (oy + r) (m.read (base + r)) [7, 6, 5, 4, 3, 2, 1, 0] acc)

/-- A sprite of `n` rows at address `base`, drawn with its origin at column `ox` and row `oy`: the new framebuffer and
the collision flag, which starts at 0 (R201). -/
def drawSprite (ox oy base n : Nat) (m : Memory) (d : Display) : Display × Bool :=
  drawRows ox oy base m (List.range n) (d, false)

/-- The effect of DXYN once its addresses are in range: the origin is read first, VF is written last (R201, R203; log
entry 21). -/
def State.drawEffect (s : State) (x y : RegIdx) (n : Nibble) : State :=
  let out := drawSprite ((s.reg x).toNat % 64) ((s.reg y).toNat % 32) s.I.toNat n.toNat s.mem s.disp
  { s.setReg VF (bit out.2) with disp := out.1, dirty := true }

/-- 00E0 CLS (R200). -/
def execCls (s : State) : Host.Outcome State Fault Refusal := .next { s with disp := Display.clear, dirty := true }

/-- DXYN DRW Vx, Vy, n: every row's address is checked first, clipped rows too (R201, R202). -/
def execDrw (x y : RegIdx) (n : Nibble) (s : State) : Host.Outcome State Fault Refusal :=
  guardData (.drw x y n) n.toNat s fun s => s.drawEffect x y n

end Sys2Proof.Machine
end

