-- ==== Sys2Proof/Machine/TimersKeys.lean ====
section
/-! DEFINITION. The timer and key-wait instructions (45_timers_keys.md). -/

namespace Sys2Proof.Machine

/-- FX07 LD Vx, DT (R220). -/
def execLdVxDT (x : RegIdx) (s : State) : Host.Outcome State Fault Refusal := .next (s.setReg x s.DT)

/-- FX0A LD Vx, K: with no key pressed the advance is undone and the instruction is fetched again; else V[x] takes one
pressed key (R221; log entry 5). -/
def execLdVxK (x : RegIdx) (s : State) : Host.Outcome State Fault Refusal :=
  match selectKey s.keyDraws s.pressed with
  | none => .next s.rewindPc
  | some k => .next { s.setReg x (keyByte k) with keyDraws := s.keyDraws + 1 }

/-- FX15 LD DT, Vx (R222). -/
def execLdDTVx (x : RegIdx) (s : State) : Host.Outcome State Fault Refusal := .next { s with DT := s.reg x }

/-- FX18 LD ST, Vx: `tone` changes only at a tick (R223, R33). -/
def execLdSTVx (x : RegIdx) (s : State) : Host.Outcome State Fault Refusal := .next { s with ST := s.reg x }

end Sys2Proof.Machine
end

