-- ==== Sys2Proof/Machine/Undef.lean ====
section
/-! DEFINITION. The UNDEF encodings: no-ops whose only effect is the pc advance of the fetch (30_encoding.md R82). -/

namespace Sys2Proof.Machine

/-- A no-op: pc has already advanced (R71, R82). -/
def noOp (s : State) : Host.Outcome State Fault Refusal := .next s

/-- 8XY8 (R82). -/
def execUndef8XY8 (s : State) : Host.Outcome State Fault Refusal := noOp s

/-- 8XY9 (R82). -/
def execUndef8XY9 (s : State) : Host.Outcome State Fault Refusal := noOp s

/-- 8XYA (R82). -/
def execUndef8XYA (s : State) : Host.Outcome State Fault Refusal := noOp s

/-- 8XYB (R82). -/
def execUndef8XYB (s : State) : Host.Outcome State Fault Refusal := noOp s

/-- 8XYC (R82). -/
def execUndef8XYC (s : State) : Host.Outcome State Fault Refusal := noOp s

/-- 8XYD (R82). -/
def execUndef8XYD (s : State) : Host.Outcome State Fault Refusal := noOp s

/-- 8XYF (R82). -/
def execUndef8XYF (s : State) : Host.Outcome State Fault Refusal := noOp s

/-- Family 0xE with any other nn (R82). -/
def execUndefE (s : State) : Host.Outcome State Fault Refusal := noOp s

/-- Family 0xF with any other nn (R82). -/
def execUndefF (s : State) : Host.Outcome State Fault Refusal := noOp s

end Sys2Proof.Machine
end

