-- ==== Sys2Proof/Machine/Block.lean ====
section
/-! DEFINITION. The block's `step` event: fetch check, fetch, decode, advance, execute (30_encoding.md R71;
20_memory.md R54, R56), and the trace record of a step (60_exceptions.md R264). -/

namespace Sys2Proof.Machine

/-- `MemRead(pc, 1) : MemRead(pc + 1, 1)` (R54). -/
def State.fetchWord (s : State) : Word := s.readByte s.pc.toNat ++ s.readByte (s.pc.toNat + 1)

/-- Whether both bytes of the fetch are in range (R56). -/
def State.fetchable (s : State) : Bool := decide (s.pc.toNat ≤ 0xFFE)

/-- `raise Fault(FetchOutOfRange, pc)`: before pc advances, with opcode 0 (R56, R242). -/
def State.raiseFetchFault (s : State) : State :=
  s.recordFault { kind := .FetchOutOfRange, pc := s.pc, opcode := 0, info := s.pc.toNat }

/-- The `step` event (R71). A faulted block ignores it (R244). -/
def blockStep (s : State) : Host.Outcome State Fault Refusal :=
  match s.fault with
  | some _ => .next s
  | none =>
    if s.fetchable then exec (decodeWord s.fetchWord) s.advancePc
    else .next s.raiseFetchFault

/-- What the block may emit for a step (R264). -/
structure TraceRecord where
  address : Word
  opcode : Word
  fields : DecodeRecord
  /-- Human-readable text, unspecified (U13; log entry 18). -/
  description : String
deriving DecidableEq, Repr

/-- The trace record of the `step` event at a state, where it executes an instruction (R264). It is a function of the
state, so emitting it changes nothing. -/
def traceOf (s : State) : Option TraceRecord :=
  match s.fault with
  | some _ => none
  | none =>
    if s.fetchable then
      some { address := s.pc, opcode := s.fetchWord, fields := decodeRecord s.fetchWord,
             description := Config.traceText s.pc s.fetchWord }
    else none

end Sys2Proof.Machine
end

