-- ==== Sys2Proof/Machine/Sequencer.lean ====
section
/-! DEFINITION. The block's other events (`tick`, `ack`, `reset`, keypad writes) and the host-side run-state sequencer
that delivers them (60_exceptions.md R250, R261, R263, R270 to R275; 70_reset_and_hazards.md R280 to R283). -/

namespace Sys2Proof.Machine

/-! ### tick and ack -/

/-- The countdown of a timer: it stops at 0 (R28, R29, R250). -/
def countDown (t : Byte) : Byte := if t = 0 then 0 else t - 1

/-- The `tick` event (R250). A faulted block ignores it (R244). -/
def tick (s : State) : State :=
  match s.fault with
  | some _ => s
  | none => { s with DT := countDown s.DT, ST := countDown s.ST, tone := decide (0 < s.ST.toNat) }

/-- The `ack` event: it clears `dirty`, in a faulted block too (R244, R261). -/
def ack (s : State) : State := { s with dirty := false }

/-- Presentation at the end of a slice: the host presents a dirty display and acknowledges it (R261, R271). -/
def present (s : State) : State := if s.dirty then ack s else s

/-! ### reset -/

/-- Memory after a reset: FONT at 0x000, ROM at 0x200, zero elsewhere (R51, R280). -/
def imageMemory (font : Vector Byte 80) (rom : List Byte) : Memory :=
  (Memory.writeBytes [] 0 font.toList).writeBytes 0x200 rom

/-- The `reset` event: every block element takes its value of R38, with the FONT and ROM of the parameters (R280,
R283). The random source is not reset (R283), nor is anything of the host's. -/
def blockReset (s : State) : State :=
  { s with
    V := Vector.replicate 16 0
    I := 0
    pc := 0x200
    sp := 0
    stack := Vector.replicate 12 0
    DT := 0
    ST := 0
    disp := Display.clear
    key := Vector.replicate 16 false
    mem := imageMemory s.params.font s.params.rom
    dirty := false
    tone := false
    fault := none }

/-- The machine created for a FONT, a ROM and a number of steps a slice (R8, R280): block reset, sequencer Running at
the start of a slice's steps, no input coming. -/
def State.create (p : Params) : State :=
  blockReset { State.reset with params := p, stepsLeft := p.stepsPerSlice }

/-- The parameters the spec allows: a ROM that fits (R7, R282) and a positive number of steps (R273). -/
abbrev Params.wf (p : Params) : Prop := p.rom.length ≤ 3584 ∧ 0 < p.stepsPerSlice

/-! ### The sequencer -/

/-- The host sets or clears one key (R263). -/
def setKey (s : State) (u : KeyIdx × Bool) : State := { s with key := s.key.set u.1.val u.2 u.1.isLt }

/-- One external signal (R270). `Quit` is terminal. -/
def handleSignal (s : State) (g : Signal) : State :=
  match s.runState, g with
  | .Quit, _ => s
  | _, .quit => { s with runState := .Quit }
  | .Running, .pauseToggle => { s with runState := .Paused }
  | .Paused, .pauseToggle => { s with runState := .Running }
  | _, .reset => { blockReset s with runState := .Running }

/-- Signals one at a time, in the order they were raised; a quit ends the poll, since nothing changes after it
(R275). -/
def handleSignals (s : State) : List Signal → State
  | [] => s
  | g :: gs => handleSignals (handleSignal s g) gs

/-- One input poll's content: keys first, then signals (R275, D33). -/
def applyPoll (s : State) (p : Poll) : State := handleSignals (p.keys.foldl setKey s) p.signals

/-- The poll at the top of a slice: the next of the host's coming polls, or one that delivers nothing (log entry 8), and
then the slice has all its steps ahead (R271). -/
def pollInput (s : State) : State :=
  let s :=
    match s.inbox with
    | [] => s
    | p :: rest => applyPoll { s with inbox := rest } p
  { s with stepsLeft := s.params.stepsPerSlice }

/-- The end of a running slice and the top of the next one: one tick, presentation, the next poll (R271). -/
def endSlice (s : State) : State := pollInput (present (tick s))

end Sys2Proof.Machine
end

