-- ==== Sys2Proof/Machine/Step.lean ====
section
/-! DEFINITION. One step of the machine: one event of the sequencer's loop (60_exceptions.md R271; log entry 6). -/

namespace Sys2Proof.Machine

/-- One step. Running with steps left in the slice: the block's `step` event, that is one instruction. Running with none
left: tick, presentation and the next poll. Paused: a slice that is only a poll (R272). Quit: the loop has stopped and
nothing changes (R270, R274; log entry 9). -/
def step (s : State) : Host.Outcome State Fault Refusal :=
  match s.runState with
  | .Quit => .next s
  | .Paused => .next (pollInput s)
  | .Running =>
    match s.stepsLeft with
    | 0 => .next (endSlice s)
    | n + 1 => blockStep { s with stepsLeft := n }

/-- `s` with a word of the opcode table stored where `step` fetches its next instruction: at pc, the high byte first
(R54), in a block that is running, has a step left in its slice and is not faulted. A pc that cannot be fetched from is
taken to 0x200. -/
def State.withFetchWord (s : State) (nbits w : Nat) : State :=
  let pc : Word := if s.fetchable then s.pc else 0x200
  { s with
    pc := pc
    mem := s.mem.writeBytes pc.toNat (wordBytes (BitVec.ofNat 16 (w % 2 ^ nbits)))
    fault := none
    runState := .Running
    stepsLeft := if s.stepsLeft = 0 then 1 else s.stepsLeft }

end Sys2Proof.Machine
end

