-- ==== Sys2Proof/Safety.lean ====
section
/-! DEFINITION. What counts as a run that has not gone wrong, and the invariants of the machine's state, in the terms
the statements use. -/

namespace Sys2Proof.Machine

/-- No model fault is recorded: a state with one is a run that has gone wrong (R14, R244, R276). -/
abbrev State.Safe (s : State) : Prop := s.fault = none

/-- `k` steps of the machine. -/
def runFor : Nat → State → Host.Outcome State Fault Refusal
  | 0, s => .next s
  | k + 1, s =>
    match step s with
    | .next t => runFor k t
    | .fault r => .fault r
    | .refused r => .refused r

/-- A run of `k` steps that ends in a safe state. A fault, once recorded, stays until a reset (R242, R244), so a run
without a reset that ends safe was safe all along. -/
def SafeRun (k : Nat) (s : State) : Prop := ∃ t, runFor k s = .next t ∧ t.Safe

/-- Memory is in its canonical form. -/
abbrev State.MemoryCanonical (s : State) : Prop := s.mem.wf

/-- A recorded fault is that of the instruction at pc: pc still holds its address, and the record holds the fetched
word, or 0 where the fetch itself failed (R34, R242, R243). -/
def State.FaultRecordCurrent (s : State) : Prop :=
  ∀ f, s.fault = some f →
    f.pc = s.pc ∧
    (f.kind = .FetchOutOfRange → 0xFFE < s.pc.toNat ∧ f.opcode = 0 ∧ f.info = s.pc.toNat) ∧
    (f.kind ≠ .FetchOutOfRange → s.pc.toNat ≤ 0xFFE ∧ f.opcode = s.fetchWord)

/-- pc and the return addresses stay where jumps, calls and advances can take them: a jump reaches at most 0x10FE
(R105) and a saved address is at most 0x1000 (R56, R104). -/
def State.PcBounded (s : State) : Prop :=
  s.pc.toNat ≤ 0x10FE ∧ ∀ k (h : k < 12), (s.stack[k]'h).toNat ≤ 0x1000

/-- Whether a sprite of `n` rows at address `base`, drawn from column `ox` and row `oy`, has a set bit for the cell at
row `r` and column `c` (R201, R204). -/
def spriteBit (ox oy base n : Nat) (m : Memory) (r c : Nat) : Bool :=
  decide (oy ≤ r ∧ r < oy + n ∧ ox ≤ c ∧ c < ox + 8) && (m.read (base + (r - oy))).getLsbD (7 - (c - ox))

end Sys2Proof.Machine
end

