-- ==== Sys2Proof/Certificates/Slice0/Obligations.lean ====
section
/-! DEFINITION. The statements for the provers. Each docstring names the rule of the spec it formalises. A statement about
`exec` speaks of the state after the fetch's advance: pc already holds the instruction's address plus 2 (R71, R286). A
frame is written as `t = { s with V := t.V }`: every field but the named ones is as before. -/

open Sys2Proof Sys2Proof.Machine

namespace Sys2Proof.Spec

/-- `V[x] <- r` and nothing else. -/
def WritesReg (s t : State) (x : RegIdx) (r : Byte) : Prop :=
  t = { s with V := t.V } ∧ t.reg x = r ∧ ∀ q, q ≠ x → t.reg q = s.reg q

/-- `V[x] <- r`, then `V[0xF] <- f`, and nothing else (R132): with x = 0xF the flag is what stays. -/
def WritesRegAndFlag (s t : State) (x : RegIdx) (r : Byte) (f : Bool) : Prop :=
  t = { s with V := t.V } ∧ t.reg 15 = (if f then 1 else 0) ∧ (x ≠ 15 → t.reg x = r) ∧
    ∀ q, q ≠ x → q ≠ 15 → t.reg q = s.reg q

/-- The state after instruction `i` raises a fault (R242, R243): pc is back at the instruction's address, the record is
there, and nothing else has changed. -/
def faulted (i : Instr) (kind : FaultKind) (info : Nat) (s : State) : State :=
  { s with pc := s.pc - 2, fault := some { kind := kind, pc := s.pc - 2, opcode := encode i, info := info } }

/-- The DataOutOfRange fault of an access of `count` bytes from I up, with its info (R57, R241). -/
def dataFault (s : State) (count : Nat) : Option (FaultKind × Nat) :=
  if 0 < count ∧ 0xFFF < s.I.toNat + (count - 1) then
    some (.DataOutOfRange, if 0xFFF < s.I.toNat then s.I.toNat else 0x1000)
  else none

/-- The table of model faults (R241): which fault, with which info, each instruction raises. -/
def modelFault (i : Instr) (s : State) : Option (FaultKind × Nat) :=
  match i with
  | .call _ => if s.sp.val = 12 then some (.StackOverflow, 12) else none
  | .ret _ => if s.sp.val = 0 then some (.StackUnderflow, 0) else none
  | .skp x | .sknp x => if 0xF < (s.reg x).toNat then some (.KeyIndexOutOfRange, (s.reg x).toNat) else none
  | .drw _ _ n => dataFault s n.toNat
  | .ldB _ => dataFault s 3
  | .store x | .load x => dataFault s (x.val + 1)
  | _ => none

/-- Which instruction may write which general register (R22). -/
def mayWriteReg (i : Instr) (q : RegIdx) : Prop :=
  match i with
  | .ldImm x _ | .addImm x _ | .ldReg x _ | .orReg x _ | .andReg x _ | .xorReg x _ | .rnd x _ | .ldVxDT x | .ldVxK x =>
    q = x
  | .addReg x _ | .subReg x _ | .shr x _ | .subnReg x _ | .shl x _ => q = x ∨ q = 15
  | .drw _ _ _ => q = 15
  | .load x => q ≤ x
  | _ => False

/-- How many bytes from I up an instruction stores (R58). -/
def storedBytes : Instr → Nat
  | .ldB _ => 3
  | .store x => x.val + 1
  | _ => 0

/-- Where pc may stand after an instruction that raised no fault (R25): `t` after `i` from `s`. -/
def pcAllowed (i : Instr) (s t : State) : Prop :=
  match i with
  | .seImm _ _ | .sneImm _ _ | .seReg _ _ _ | .sneReg _ _ _ | .skp _ | .sknp _ => t.pc = s.pc ∨ t.pc = s.pc + 2
  | .sys nnn | .jp nnn | .call nnn => t.pc.toNat = nnn.toNat
  | .jpV0 nnn => t.pc.toNat = nnn.toNat + (s.reg 0).toNat
  | .ret _ => ∃ k, ∃ h : k < 12, s.sp.val = k + 1 ∧ t.pc = s.stack[k]
  | .ldVxK _ => t.pc = s.pc ∨ t.pc = s.pc - 2
  | _ => t.pc = s.pc

/-- The next poll raises no reset signal. -/
def NoResetNext (s : State) : Prop := ∀ p ∈ s.inbox.head?, Signal.reset ∉ p.signals

/-- The keypad and `run_state` of `t` are those that the next poll gives from `s`: unchanged where no poll is coming. -/
def PollDelivered (s t : State) : Prop :=
  match s.inbox with
  | [] => t.key = s.key ∧ t.runState = s.runState
  | p :: _ => t.key = (applyPoll s p).key ∧ t.runState = (applyPoll s p).runState

/-- The state of key `k` after a poll's key updates, taken in their order: that of the last update of the key, or `old`
where no update names it (R263). -/
def lastUpdate (keys : List (KeyIdx × Bool)) (k : KeyIdx) (old : Bool) : Bool :=
  ((keys.filter (fun u => u.1 == k)).getLast?.map (·.2)).getD old

/-- All block state but `dirty` and the keypad, which the host writes, is as before. -/
def BlockHeld (s t : State) : Prop :=
  t.V = s.V ∧ t.I = s.I ∧ t.pc = s.pc ∧ t.sp = s.sp ∧ t.stack = s.stack ∧ t.DT = s.DT ∧ t.ST = s.ST ∧
    t.disp = s.disp ∧ t.mem = s.mem ∧ t.tone = s.tone ∧ t.fault = s.fault

/-- The two states look the same to every program: they agree in all that an instruction reads. `dirty` (R32), `tone`
(R33) and ST (R29) are not among it, nor are the stack's entries from sp up (R27). -/
def SameToPrograms (s t : State) : Prop :=
  s.V = t.V ∧ s.I = t.I ∧ s.pc = t.pc ∧ s.sp = t.sp ∧ (∀ k, ∀ h : k < 12, k < s.sp.val → s.stack[k] = t.stack[k]) ∧
    s.DT = t.DT ∧ s.disp = t.disp ∧ s.key = t.key ∧ s.mem = t.mem ∧ s.fault = t.fault ∧
    s.randDraws = t.randDraws ∧ s.keyDraws = t.keyDraws

/-- The host's data and the draw counters are as before. -/
def HostHeld (s t : State) : Prop :=
  t.runState = s.runState ∧ t.stepsLeft = s.stepsLeft ∧ t.inbox = s.inbox ∧ t.params = s.params ∧
    t.randDraws = s.randDraws ∧ t.keyDraws = s.keyDraws

end Sys2Proof.Spec

open Sys2Proof.Spec

/-! ### Encoding -/

/-- Decode and encode agree: the word of every well-formed instruction decodes to it (30_encoding.md,
opcode_table.json). -/
def Obligations.DecodeInvertsEncode : Prop :=
  ∀ i : Instr, i.wf = true → decodeWord (encode i) = i

/-- Every 16-bit word decodes to a well-formed instruction (R74), and no bit of the word is lost: an instruction keeps
its ignored bits, the model's choice (log entry 11). -/
def Obligations.EveryWordDecodesAndEncodesBack : Prop :=
  ∀ w : Word, (decodeWord w).wf = true ∧ encode (decodeWord w) = w

/-- The opcode map R81: the first matching line of the map gives the operation, and some line matches every word. The
selectors are the readings D4, D5 and D6 (93_implementation_defined.md U16). -/
def Obligations.OpcodeMapFirstMatch : Prop :=
  ∀ w : Word, mapOp w = some (decodeWord w).op

/-- The fields' formulas (R72) and the identities between them (R73). -/
def Obligations.FieldsRecombine : Prop :=
  ∀ w : Word,
    (family w).toNat = w.toNat >>> 12 ∧ (fieldX w).toNat = (w.toNat >>> 8) &&& 0xF ∧
    (fieldY w).toNat = (w.toNat >>> 4) &&& 0xF ∧ (fieldN w).toNat = w.toNat &&& 0xF ∧
    (fieldNN w).toNat = w.toNat &&& 0xFF ∧ (fieldNNN w).toNat = w.toNat &&& 0xFFF ∧
    (fieldNNN w).toNat = (fieldX w).toNat * 256 + (fieldNN w).toNat ∧
    (fieldNN w).toNat = (fieldY w).toNat * 16 + (fieldN w).toNat ∧
    w.toNat = (family w).toNat * 4096 + (fieldNNN w).toNat ∧
    w.toNat = (family w).toNat * 4096 + (fieldX w).toNat * 256 + (fieldY w).toNat * 16 + (fieldN w).toNat

/-- Some words of 95_test_vectors.md decode to the instructions they stand for (T-DEC-1 to T-DEC-19, P1, P2); 0x01E0,
0x0FEE and 0x5121 rest on the readings D4 and D6 (U16). -/
def Obligations.SampleWordsDecode : Prop :=
  decodeWord 0x0000 = .sys 0x000 ∧ decodeWord 0x00E0 = .cls 0 ∧ decodeWord 0x01E0 = .cls 1 ∧
  decodeWord 0x0FEE = .ret 0xF ∧ decodeWord 0x1204 = .jp 0x204 ∧ decodeWord 0x2208 = .call 0x208 ∧
  decodeWord 0x5121 = .seReg 1 2 1 ∧ decodeWord 0x7001 = .addImm 0 0x01 ∧ decodeWord 0x8014 = .addReg 0 1 ∧
  decodeWord 0x800E = .shl 0 0 ∧ decodeWord 0x800F = .undef8XYF 0 0 ∧ decodeWord 0xABCD = .ldI 0xBCD ∧
  decodeWord 0xD00F = .drw 0 0 15 ∧ decodeWord 0xE09E = .skp 0 ∧ decodeWord 0xE09F = .undefE 0 0x9F ∧
  decodeWord 0xF007 = .ldVxDT 0 ∧ decodeWord 0xF155 = .store 1 ∧ decodeWord 0xFFFF = .undefF 15 0xFF

/-! ### Fetch and step -/

/-- A step runs the decoded instruction: in a running machine with a step left in its slice and no fault, where both
bytes at pc are in memory and decode, high byte first, to `i`, the step is `exec i` of the state with pc advanced by 2
(R71, R54) and one step of the slice used (R271). -/
def Obligations.StepRunsDecodedInstruction : Prop :=
  ∀ (s : State) (n : Nat) (i : Instr),
    s.runState = .Running → s.stepsLeft = n + 1 → s.fault = none → s.pc.toNat ≤ 0xFFE →
    decode [s.readByte s.pc.toNat, s.readByte (s.pc.toNat + 1)] = .ok (i, []) →
    step s = exec i { s with stepsLeft := n, pc := s.pc + 2 }

/-- The trace record (R264): for every `step` that executes an instruction it holds the instruction's address, the
fetched word and the decode record of R86, and the word is that of the instruction executed; the description is some
text. -/
def Obligations.TraceRecordsTheStep : Prop :=
  ∀ s : State, s.fault = none → s.pc.toNat ≤ 0xFFE →
    (∃ text, traceOf s = some ⟨s.pc, s.fetchWord, decodeRecord s.fetchWord, text⟩) ∧
    ∃ i, i.op = (decodeRecord s.fetchWord).op ∧ encode i = s.fetchWord ∧ blockStep s = exec i { s with pc := s.pc + 2 }

/-- A fetch whose second byte is out of range raises FetchOutOfRange before pc advances (R56): the record holds pc,
opcode 0 and info pc, and nothing else changes but the step used. -/
def Obligations.FetchBeyondMemoryFaults : Prop :=
  ∀ (s : State) (n : Nat),
    s.runState = .Running → s.stepsLeft = n + 1 → s.fault = none → 0xFFE < s.pc.toNat →
    step s = .next { s with stepsLeft := n, fault := some ⟨.FetchOutOfRange, s.pc, 0, s.pc.toNat⟩ }

/-- The machine never stops: every step answers a next state (R276: the block has no halt instruction; R240: no
exception leaves it). That a model fault is a next state is log entry 1. -/
def Obligations.EveryStepAnswersNext : Prop :=
  ∀ s : State, ∃ t, step s = .next t

/-! ### Faults -/

/-- The table of model faults (R241), whole: from an unfaulted block, a `step` event records the fetch fault where pc is
beyond 0xFFE, else the fault of the table for the decoded instruction, and no fault where the table has none. -/
def Obligations.ModelFaultTable : Prop :=
  ∀ s : State, s.fault = none →
    ∃ t, blockStep s = .next t ∧
      t.fault =
        if 0xFFE < s.pc.toNat then some ⟨.FetchOutOfRange, s.pc, 0, s.pc.toNat⟩
        else (modelFault (decodeWord s.fetchWord) s).map fun f => ⟨f.1, s.pc, s.fetchWord, f.2⟩

/-- Faults are precise (R243): when a `step` event records a fault, every other state element keeps the value it had
before that event, pc among them. -/
def Obligations.FaultsArePrecise : Prop :=
  ∀ s t : State, s.fault = none → blockStep s = .next t → t.fault ≠ none → t = { s with fault := t.fault }

/-- A faulted block is frozen (R244): `step` and `tick` have no effect, the acknowledge clears `dirty` and changes
nothing else, and a machine step without a reset signal in its poll keeps the fault and all block state but `dirty` and
the keypad, which the host writes. A reset leaves the condition. -/
def Obligations.FaultedBlockIsFrozen : Prop :=
  ∀ (s : State) (f : FaultRecord), s.fault = some f →
    blockStep s = .next s ∧ tick s = s ∧ ack s = { s with dirty := false } ∧ (blockReset s).fault = none ∧
    ∀ t, step s = .next t → NoResetNext s → BlockHeld s t

/-! ### Whole-machine rules -/

/-- Only FX33 and FX55 write memory (R50), and only the bytes I, I+1, ... of their count (R58): every other byte reads
as before, and after any other instruction every byte does. -/
def Obligations.OnlyStoresWriteMemory : Prop :=
  ∀ (i : Instr) (s t : State) (a : Nat), exec i s = .next t →
    (a < s.I.toNat ∨ s.I.toNat + storedBytes i ≤ a) → t.readByte a = s.readByte a

/-- The display changes only by 00E0 and DXYN, and so does `dirty` among the instructions (R205, R32); the tick, the
acknowledge and the host's keypad writes leave the display as it is, and a reset clears it. -/
def Obligations.OnlyClsAndDrwChangeDisplay : Prop :=
  (∀ (i : Instr) (s t : State), exec i s = .next t →
    (∀ p, i ≠ .cls p) → (∀ x y n, i ≠ .drw x y n) → t.disp = s.disp ∧ t.dirty = s.dirty) ∧
  ∀ s : State, (tick s).disp = s.disp ∧ (ack s).disp = s.disp ∧ (∀ u, (setKey s u).disp = s.disp) ∧
    ∀ k, k < 2048 → (blockReset s).disp.cell k = false

/-- DT is written only by FX15 and ST only by FX18 (R28, R29), and no instruction writes `tone` (R33), the keypad (R31)
or anything of the host's. -/
def Obligations.TimersToneAndKeypadWriters : Prop :=
  ∀ (i : Instr) (s t : State), exec i s = .next t →
    ((∀ x, i ≠ .ldDTVx x) → t.DT = s.DT) ∧ ((∀ x, i ≠ .ldSTVx x) → t.ST = s.ST) ∧ t.tone = s.tone ∧ t.key = s.key ∧
    t.runState = s.runState ∧ t.stepsLeft = s.stepsLeft ∧ t.inbox = s.inbox ∧ t.params = s.params

/-- Only 2NNN pushes and only 00EE pops (R26); a pop leaves the stack's entries as they are (R27), and a push writes
only the entry at sp. -/
def Obligations.OnlyCallAndRetMoveStack : Prop :=
  ∀ (i : Instr) (s t : State), exec i s = .next t →
    ((∀ nnn, i ≠ .call nnn) → t.stack = s.stack) ∧
    ((∀ nnn, i ≠ .call nnn) → (∀ p, i ≠ .ret p) → t.sp = s.sp) ∧
    ∀ k, ∀ h : k < 12, k ≠ s.sp.val → t.stack[k] = s.stack[k]

/-- Which instructions write a general register (R22): every other register of every instruction is as before. -/
def Obligations.GeneralRegisterWriters : Prop :=
  ∀ (i : Instr) (s t : State) (q : RegIdx), exec i s = .next t → ¬ mayWriteReg i q → t.reg q = s.reg q

/-- I is written only by ANNN, FX1E and FX29; ANNN leaves at most 0xFFF and FX29 at most 0x4B in it (R23). -/
def Obligations.IndexRegisterWriters : Prop :=
  ∀ (i : Instr) (s t : State), exec i s = .next t →
    ((∀ nnn, i ≠ .ldI nnn) → (∀ x, i ≠ .addI x) → (∀ x, i ≠ .ldF x) → t.I = s.I) ∧
    (∀ nnn, i = .ldI nnn → t.I.toNat ≤ 0xFFF) ∧ (∀ x, i = .ldF x → t.I.toNat ≤ 0x4B)

/-- pc changes only in the ways R25 lists: besides the fetch's advance, by a skip, a jump or call, a return, and the
key-wait rewind; an instruction that raises a fault has its advance undone (R243). -/
def Obligations.PcChangesOnlyAsListed : Prop :=
  ∀ (i : Instr) (s t : State), s.fault = none → exec i s = .next t →
    (t.fault = none → pcAllowed i s t) ∧ (t.fault ≠ none → t.pc = s.pc - 2)

/-- What no program can observe: from two states that differ only in `dirty`, `tone`, ST, the stack's entries from sp up
and the host's data, a `step` event leads to two states that again differ only there (R27, R29, R32, R33, R35). -/
def Obligations.HiddenStateIsNotObservable : Prop :=
  ∀ s s' t : State, SameToPrograms s s' → blockStep s = .next t → ∃ t', blockStep s' = .next t' ∧ SameToPrograms t t'

/-! ### Control transfer -/

/-- SYS nnn and JP nnn (R102, R103): encodings, pc takes nnn, nothing else changes, no fault. SYS is every word of
family 0x0 whose low byte is not E0 or EE (the reading D4, U16). -/
def Obligations.SysAndJumpLoadPc : Prop :=
  (∀ (x : Nibble) (nn : Byte), nn ≠ 0xE0 → nn ≠ 0xEE → decodeWord (wordXNN 0x0 x nn) = .sys (x ++ nn)) ∧
  (∀ nnn, decodeWord (wordNNN 0x1 nnn) = .jp nnn) ∧
  ∀ (i : Instr) (nnn : Addr12) (s : State), i = .sys nnn ∨ i = .jp nnn →
    ∃ t, exec i s = .next t ∧ t = { s with pc := t.pc } ∧ t.pc.toNat = nnn.toNat

/-- JP V0, nnn (R105): encoding, pc takes nnn + V0, not reduced modulo 4096, nothing else changes; a pc above 0xFFE then
faults at the next fetch. -/
def Obligations.JumpWithOffset : Prop :=
  (∀ nnn, decodeWord (wordNNN 0xB nnn) = .jpV0 nnn) ∧
  ∀ (nnn : Addr12) (s : State),
    ∃ t, exec (.jpV0 nnn) s = .next t ∧ t = { s with pc := t.pc } ∧ t.pc.toNat = nnn.toNat + (s.reg 0).toNat ∧
      (s.fault = none → 0xFFE < t.pc.toNat →
        blockStep t = .next { t with fault := some ⟨.FetchOutOfRange, t.pc, 0, t.pc.toNat⟩ })

/-- CALL nnn (R104): encoding; with room on the stack, the entry at sp takes pc (the address after the call), sp counts
one more and pc takes nnn, nothing else changes; with sp = 12, StackOverflow with info 12. -/
def Obligations.CallPushesAndJumps : Prop :=
  (∀ nnn, decodeWord (wordNNN 0x2 nnn) = .call nnn) ∧
  (∀ (nnn : Addr12) (s : State) (h : s.sp.val < 12),
    ∃ t, exec (.call nnn) s = .next t ∧ t = { s with pc := t.pc, sp := t.sp, stack := t.stack } ∧
      t.pc.toNat = nnn.toNat ∧ t.sp.val = s.sp.val + 1 ∧ t.stack[s.sp.val] = s.pc ∧
      ∀ k, ∀ hk : k < 12, k ≠ s.sp.val → t.stack[k] = s.stack[k]) ∧
  ∀ (nnn : Addr12) (s : State), s.fault = none → s.sp.val = 12 →
    exec (.call nnn) s = .next (faulted (.call nnn) .StackOverflow 12 s)

/-- RET (R101): encoding, x ignored (the reading D4, U16); with an entry in use, sp counts one less and pc takes the
entry below, which is not cleared, nothing else changes; with sp = 0, StackUnderflow with info 0. -/
def Obligations.ReturnPops : Prop :=
  (∀ x, decodeWord (wordXNN 0x0 x 0xEE) = .ret x) ∧
  (∀ (x : Nibble) (s : State) (k : Nat) (hk : k < 12), s.sp.val = k + 1 →
    ∃ t, exec (.ret x) s = .next t ∧ t = { s with pc := t.pc, sp := t.sp } ∧ t.sp.val = k ∧ t.pc = s.stack[k]) ∧
  ∀ (x : Nibble) (s : State), s.fault = none → s.sp.val = 0 →
    exec (.ret x) s = .next (faulted (.ret x) .StackUnderflow 0 s)

/-- Call nesting (R106, which the spec marks as derived): a call, then whatever leaves sp and the stack as the call left
them, then a return: pc is back at the instruction after the call and sp at its value before it. A 13th call faults
before it makes any change. -/
def Obligations.CallThenReturnBalances : Prop :=
  (∀ (nnn : Addr12) (x : Nibble) (s : State), s.sp.val < 12 →
    ∃ t, exec (.call nnn) s = .next t ∧
      ∀ u : State, u.sp = t.sp → u.stack = t.stack →
        ∃ v, exec (.ret x) u = .next v ∧ v.pc = s.pc ∧ v.sp = s.sp ∧ v = { u with pc := v.pc, sp := v.sp }) ∧
  ∀ (nnn : Addr12) (s : State), s.fault = none → s.sp.val = 12 →
    exec (.call nnn) s = .next (faulted (.call nnn) .StackOverflow 12 s)

/-! ### Skips -/

/-- 3XNN, 4XNN, 5XY0 and 9XY0 (R120 to R123): encodings (n ignored in families 5 and 9, the reading D6, U16), pc
advances by 2 more exactly where the comparison holds, and nothing else changes (R40). -/
def Obligations.SkipsOnComparison : Prop :=
  (∀ x nn, decodeWord (wordXNN 0x3 x nn) = .seImm (regOf x) nn) ∧
  (∀ x nn, decodeWord (wordXNN 0x4 x nn) = .sneImm (regOf x) nn) ∧
  (∀ x y n, decodeWord (wordXYN 0x5 x y n) = .seReg (regOf x) (regOf y) n) ∧
  (∀ x y n, decodeWord (wordXYN 0x9 x y n) = .sneReg (regOf x) (regOf y) n) ∧
  ∀ (x y : RegIdx) (nn : Byte) (n : Nibble) (s : State),
    exec (.seImm x nn) s = .next { s with pc := if s.reg x = nn then s.pc + 2 else s.pc } ∧
    exec (.sneImm x nn) s = .next { s with pc := if s.reg x ≠ nn then s.pc + 2 else s.pc } ∧
    exec (.seReg x y n) s = .next { s with pc := if s.reg x = s.reg y then s.pc + 2 else s.pc } ∧
    exec (.sneReg x y n) s = .next { s with pc := if s.reg x ≠ s.reg y then s.pc + 2 else s.pc }

/-- SKP Vx and SKNP Vx (R124, R125): encodings; with V[x] at most 0xF, pc advances by 2 more exactly where that key is,
or is not, pressed, and nothing else changes; with V[x] above 0xF, KeyIndexOutOfRange with info V[x]. -/
def Obligations.SkipsOnKey : Prop :=
  (∀ x, decodeWord (wordXNN 0xE x 0x9E) = .skp (regOf x)) ∧
  (∀ x, decodeWord (wordXNN 0xE x 0xA1) = .sknp (regOf x)) ∧
  (∀ (x : RegIdx) (k : KeyIdx) (s : State), (s.reg x).toNat = k.val →
    exec (.skp x) s = .next { s with pc := if s.keyDown k = true then s.pc + 2 else s.pc } ∧
    exec (.sknp x) s = .next { s with pc := if s.keyDown k = false then s.pc + 2 else s.pc }) ∧
  ∀ (x : RegIdx) (s : State), s.fault = none → 0xF < (s.reg x).toNat →
    exec (.skp x) s = .next (faulted (.skp x) .KeyIndexOutOfRange (s.reg x).toNat s) ∧
    exec (.sknp x) s = .next (faulted (.sknp x) .KeyIndexOutOfRange (s.reg x).toNat s)

/-! ### Register loads and the ALU -/

/-- LD Vx, nn and ADD Vx, nn (R140, R141): encodings, the new value of V[x] (modulo 256), nothing else changes: VF is
written only as the destination. -/
def Obligations.ImmediateLoadAndAdd : Prop :=
  (∀ x nn, decodeWord (wordXNN 0x6 x nn) = .ldImm (regOf x) nn) ∧
  (∀ x nn, decodeWord (wordXNN 0x7 x nn) = .addImm (regOf x) nn) ∧
  ∀ (x : RegIdx) (nn : Byte) (s : State),
    (∃ t, exec (.ldImm x nn) s = .next t ∧ WritesReg s t x nn) ∧
    (∃ t, exec (.addImm x nn) s = .next t ∧ WritesReg s t x (s.reg x + nn))

/-- LD, OR, AND, XOR of two registers (R142 to R145): encodings, the new value of V[x], nothing else changes: VF is not
reset. -/
def Obligations.CopyAndLogic : Prop :=
  (∀ x y, decodeWord (wordXYN 0x8 x y 0x0) = .ldReg (regOf x) (regOf y)) ∧
  (∀ x y, decodeWord (wordXYN 0x8 x y 0x1) = .orReg (regOf x) (regOf y)) ∧
  (∀ x y, decodeWord (wordXYN 0x8 x y 0x2) = .andReg (regOf x) (regOf y)) ∧
  (∀ x y, decodeWord (wordXYN 0x8 x y 0x3) = .xorReg (regOf x) (regOf y)) ∧
  ∀ (x y : RegIdx) (s : State),
    (∃ t, exec (.ldReg x y) s = .next t ∧ WritesReg s t x (s.reg y)) ∧
    (∃ t, exec (.orReg x y) s = .next t ∧ WritesReg s t x (s.reg x ||| s.reg y)) ∧
    (∃ t, exec (.andReg x y) s = .next t ∧ WritesReg s t x (s.reg x &&& s.reg y)) ∧
    (∃ t, exec (.xorReg x y) s = .next t ∧ WritesReg s t x (s.reg x ^^^ s.reg y))

/-- ADD Vx, Vy (R146, with the write order R132): encoding, V[x] takes the sum modulo 256 and VF the carry, last (the
reading D7, U15). -/
def Obligations.AddWithCarry : Prop :=
  (∀ x y, decodeWord (wordXYN 0x8 x y 0x4) = .addReg (regOf x) (regOf y)) ∧
  ∀ (x y : RegIdx) (s : State),
    ∃ t, exec (.addReg x y) s = .next t ∧
      WritesRegAndFlag s t x (s.reg x + s.reg y) (decide (0xFF < (s.reg x).toNat + (s.reg y).toNat))

/-- SUB and SUBN (R147, R149): encodings, V[x] takes the difference modulo 256 and VF, last, the strict comparison.
Equal operands give VF = 0, the reading of 90_conflicts.md C1 (93_implementation_defined.md U14), and the write order is
the reading D7 (U15). -/
def Obligations.SubtractWithNotBorrow : Prop :=
  (∀ x y, decodeWord (wordXYN 0x8 x y 0x5) = .subReg (regOf x) (regOf y)) ∧
  (∀ x y, decodeWord (wordXYN 0x8 x y 0x7) = .subnReg (regOf x) (regOf y)) ∧
  ∀ (x y : RegIdx) (s : State),
    (∃ t, exec (.subReg x y) s = .next t ∧
      WritesRegAndFlag s t x (s.reg x - s.reg y) (decide (s.reg y < s.reg x))) ∧
    (∃ t, exec (.subnReg x y) s = .next t ∧
      WritesRegAndFlag s t x (s.reg y - s.reg x) (decide (s.reg x < s.reg y)))

/-- SHR and SHL (R148, R150): encodings, V[x] is shifted by one, y is not used, and VF takes, last, the bit shifted out.
The reading of 92_eei_decisions.md D35: no V[y] mode; the write order is the reading D7 (U15). -/
def Obligations.ShiftsOutOneBit : Prop :=
  (∀ x y, decodeWord (wordXYN 0x8 x y 0x6) = .shr (regOf x) (regOf y)) ∧
  (∀ x y, decodeWord (wordXYN 0x8 x y 0xE) = .shl (regOf x) (regOf y)) ∧
  ∀ (x y : RegIdx) (s : State),
    (∃ t, exec (.shr x y) s = .next t ∧
      WritesRegAndFlag s t x (BitVec.ofNat 8 ((s.reg x).toNat / 2)) (decide ((s.reg x).toNat % 2 = 1))) ∧
    (∃ t, exec (.shl x y) s = .next t ∧
      WritesRegAndFlag s t x (s.reg x + s.reg x) (decide (0x80 ≤ (s.reg x).toNat)))

/-- RND Vx, nn (R160): encoding, V[x] takes the draw masked by nn, whatever the draw is (a free value, log entry 4); one
draw is used and nothing else changes; bits where nn is 0 are 0. -/
def Obligations.RandomByteMasked : Prop :=
  (∀ x nn, decodeWord (wordXNN 0xC x nn) = .rnd (regOf x) nn) ∧
  ∀ (x : RegIdx) (nn : Byte) (s : State),
    ∃ t, exec (.rnd x nn) s = .next t ∧ t = { s with V := t.V, randDraws := s.randDraws + 1 } ∧
      t.reg x = Config.rand s.randDraws &&& nn ∧ (∀ q, q ≠ x → t.reg q = s.reg q) ∧
      ∀ b, nn.getLsbD b = false → (t.reg x).getLsbD b = false

/-! ### Index register and memory transfers -/

/-- LD I, nnn, ADD I, Vx and LD F, Vx (R180, R181, R183): encodings, the new value of I, nothing else changes, VF not
written. -/
def Obligations.IndexRegisterLoads : Prop :=
  (∀ nnn, decodeWord (wordNNN 0xA nnn) = .ldI nnn) ∧
  (∀ x, decodeWord (wordXNN 0xF x 0x1E) = .addI (regOf x)) ∧
  (∀ x, decodeWord (wordXNN 0xF x 0x29) = .ldF (regOf x)) ∧
  ∀ (nnn : Addr12) (x : RegIdx) (s : State),
    (∃ t, exec (.ldI nnn) s = .next t ∧ t = { s with I := t.I } ∧ t.I.toNat = nnn.toNat) ∧
    (∃ t, exec (.addI x) s = .next t ∧ t = { s with I := t.I } ∧
      t.I.toNat = (s.I.toNat + (s.reg x).toNat) % 65536) ∧
    (∃ t, exec (.ldF x) s = .next t ∧ t = { s with I := t.I } ∧ t.I.toNat = ((s.reg x).toNat % 16) * 5)

/-- LD B, Vx (R184): encoding; where I + 2 is in memory, hundreds, tens and ones of V[x] stand at I, I+1 and I+2, every
other byte and everything else is as before; else DataOutOfRange with the lowest such address. -/
def Obligations.DecimalStore : Prop :=
  (∀ x, decodeWord (wordXNN 0xF x 0x33) = .ldB (regOf x)) ∧
  (∀ (x : RegIdx) (s : State), s.I.toNat + 2 ≤ 0xFFF →
    ∃ t, exec (.ldB x) s = .next t ∧ t = { s with mem := t.mem } ∧
      (t.readByte s.I.toNat).toNat = (s.reg x).toNat / 100 ∧
      (t.readByte (s.I.toNat + 1)).toNat = (s.reg x).toNat / 10 % 10 ∧
      (t.readByte (s.I.toNat + 2)).toNat = (s.reg x).toNat % 10 ∧
      ∀ a, (a < s.I.toNat ∨ s.I.toNat + 2 < a) → t.readByte a = s.readByte a) ∧
  ∀ (x : RegIdx) (s : State), s.fault = none → 0xFFF < s.I.toNat + 2 →
    exec (.ldB x) s = .next (faulted (.ldB x) .DataOutOfRange (max s.I.toNat 0x1000) s)

/-- LD [I], Vx (R185): encoding; where I + x is in memory, V0..Vx stand at I..I+x, every other byte and everything else
(I among it) is as before; else DataOutOfRange with max(I, 0x1000). -/
def Obligations.RegisterBlockStore : Prop :=
  (∀ x, decodeWord (wordXNN 0xF x 0x55) = .store (regOf x)) ∧
  (∀ (x : RegIdx) (s : State), s.I.toNat + x.val ≤ 0xFFF →
    ∃ t, exec (.store x) s = .next t ∧ t = { s with mem := t.mem } ∧
      (∀ k : RegIdx, k ≤ x → t.readByte (s.I.toNat + k.val) = s.reg k) ∧
      ∀ a, (a < s.I.toNat ∨ s.I.toNat + x.val < a) → t.readByte a = s.readByte a) ∧
  ∀ (x : RegIdx) (s : State), s.fault = none → 0xFFF < s.I.toNat + x.val →
    exec (.store x) s = .next (faulted (.store x) .DataOutOfRange (max s.I.toNat 0x1000) s)

/-- LD Vx, [I] (R186): encoding; where I + x is in memory, V0..Vx take the bytes at I..I+x, every other register and
everything else (I among it) is as before; else DataOutOfRange with max(I, 0x1000). -/
def Obligations.RegisterBlockLoad : Prop :=
  (∀ x, decodeWord (wordXNN 0xF x 0x65) = .load (regOf x)) ∧
  (∀ (x : RegIdx) (s : State), s.I.toNat + x.val ≤ 0xFFF →
    ∃ t, exec (.load x) s = .next t ∧ t = { s with V := t.V } ∧
      (∀ k : RegIdx, k ≤ x → t.reg k = s.readByte (s.I.toNat + k.val)) ∧ ∀ k : RegIdx, x < k → t.reg k = s.reg k) ∧
  ∀ (x : RegIdx) (s : State), s.fault = none → 0xFFF < s.I.toNat + x.val →
    exec (.load x) s = .next (faulted (.load x) .DataOutOfRange (max s.I.toNat 0x1000) s)

/-- Stored bytes are fetched (R63, which the spec marks as derived): after FX55, a fetch at two of the stored bytes
gives the registers that stand there. -/
def Obligations.StoredBytesAreFetched : Prop :=
  ∀ (x : RegIdx) (s : State), s.I.toNat + x.val ≤ 0xFFF →
    ∃ t, exec (.store x) s = .next t ∧
      ∀ (k j : RegIdx) (p : Word), j.val = k.val + 1 → j ≤ x → p.toNat = s.I.toNat + k.val →
        ({ t with pc := p } : State).fetchWord = s.reg k ++ s.reg j

/-! ### Display -/

/-- CLS (R200): encoding, x ignored (the reading D4, U16); all 2048 cells 0, `dirty` set, nothing else changes. -/
def Obligations.ClearScreen : Prop :=
  (∀ x, decodeWord (wordXNN 0x0 x 0xE0) = .cls x) ∧
  ∀ (x : Nibble) (s : State),
    ∃ t, exec (.cls x) s = .next t ∧ t = { s with disp := t.disp, dirty := true } ∧
      ∀ k, k < 2048 → t.disp.cell k = false

/-- DRW Vx, Vy, n (R201, R202), cell by cell: encoding; where n = 0 or I + n - 1 is in memory, each cell is toggled
exactly where the sprite at the wrapped origin has a set bit for it, VF is 1 exactly where such a cell was lit, `dirty`
is set, and nothing else changes; the origin is read before VF is written (D25). Else DataOutOfRange with the lowest
such address, clipped rows counted (D24). -/
def Obligations.SpriteDrawCellByCell : Prop :=
  (∀ x y n, decodeWord (wordXYN 0xD x y n) = .drw (regOf x) (regOf y) n) ∧
  (∀ (x y : RegIdx) (n : Nibble) (s : State), n = 0 ∨ s.I.toNat + (n.toNat - 1) ≤ 0xFFF →
    ∃ t, exec (.drw x y n) s = .next t ∧ t = { s with V := t.V, disp := t.disp, dirty := true } ∧
      (∀ r c, r < 32 → c < 64 →
        t.disp.cell (r * 64 + c) =
          (s.disp.cell (r * 64 + c) ^^
            spriteBit ((s.reg x).toNat % 64) ((s.reg y).toNat % 32) s.I.toNat n.toNat s.mem r c)) ∧
      (∀ q, q ≠ 15 → t.reg q = s.reg q) ∧ (t.reg 15 = 0 ∨ t.reg 15 = 1) ∧
      (t.reg 15 = 1 ↔ ∃ r c, r < 32 ∧ c < 64 ∧
        spriteBit ((s.reg x).toNat % 64) ((s.reg y).toNat % 32) s.I.toNat n.toNat s.mem r c = true ∧
        s.disp.cell (r * 64 + c) = true)) ∧
  ∀ (x y : RegIdx) (n : Nibble) (s : State), s.fault = none → n ≠ 0 → 0xFFF < s.I.toNat + (n.toNat - 1) →
    exec (.drw x y n) s = .next (faulted (.drw x y n) .DataOutOfRange (max s.I.toNat 0x1000) s)

/-- The cells a sprite can change (R204, which the spec marks as derived): columns ox..min(ox+7, 63) and rows
oy..min(oy+n-1, 31) of its origin. -/
def Obligations.SpriteStaysInItsWindow : Prop :=
  ∀ (x y : RegIdx) (n : Nibble) (s t : State) (r c : Nat), exec (.drw x y n) s = .next t → r < 32 → c < 64 →
    t.disp.cell (r * 64 + c) ≠ s.disp.cell (r * 64 + c) →
    (s.reg x).toNat % 64 ≤ c ∧ c ≤ min ((s.reg x).toNat % 64 + 7) 63 ∧
      (s.reg y).toNat % 32 ≤ r ∧ r < (s.reg y).toNat % 32 + n.toNat ∧ r ≤ 31

/-- Drawing a sprite twice at one origin restores the display, and the second draw's VF is 1 exactly where a set bit of
the sprite fell on a cell of the screen that was dark before both draws (95_test_vectors.md E6, for every sprite and
display). The registers between the draws are put back, since the first draw may have changed a coordinate held in VF.
-/
def Obligations.DrawingTwiceErases : Prop :=
  ∀ (x y : RegIdx) (n : Nibble) (s : State), n = 0 ∨ s.I.toNat + (n.toNat - 1) ≤ 0xFFF →
    ∃ t u, exec (.drw x y n) s = .next t ∧ exec (.drw x y n) { t with V := s.V } = .next u ∧ u.disp = s.disp ∧
      (u.reg 15 = 1 ↔ ∃ r c, r < 32 ∧ c < 64 ∧
        spriteBit ((s.reg x).toNat % 64) ((s.reg y).toNat % 32) s.I.toNat n.toNat s.mem r c = true ∧
        s.disp.cell (r * 64 + c) = false)

/-! ### Timers and keys -/

/-- LD Vx, DT, LD DT, Vx and LD ST, Vx (R220, R222, R223): encodings, the value moved, nothing else changes: `tone` not
until the next tick. -/
def Obligations.TimerTransfers : Prop :=
  (∀ x, decodeWord (wordXNN 0xF x 0x07) = .ldVxDT (regOf x)) ∧
  (∀ x, decodeWord (wordXNN 0xF x 0x15) = .ldDTVx (regOf x)) ∧
  (∀ x, decodeWord (wordXNN 0xF x 0x18) = .ldSTVx (regOf x)) ∧
  ∀ (x : RegIdx) (s : State),
    (∃ t, exec (.ldVxDT x) s = .next t ∧ WritesReg s t x s.DT) ∧
    (∃ t, exec (.ldDTVx x) s = .next t ∧ t = { s with DT := t.DT } ∧ t.DT = s.reg x) ∧
    (∃ t, exec (.ldSTVx x) s = .next t ∧ t = { s with ST := t.ST } ∧ t.ST = s.reg x)

/-- LD Vx, K (R221): encoding; with no key pressed pc goes back to the instruction and nothing else changes; else V[x]
takes the index of one pressed key, whichever the oracle picks (a free value, log entry 5), and nothing else changes but
the model's count of draws. -/
def Obligations.KeyWait : Prop :=
  (∀ x, decodeWord (wordXNN 0xF x 0x0A) = .ldVxK (regOf x)) ∧
  (∀ (x : RegIdx) (s : State), (∀ k, s.keyDown k = false) → exec (.ldVxK x) s = .next { s with pc := s.pc - 2 }) ∧
  ∀ (x : RegIdx) (s : State) (j : KeyIdx), s.keyDown j = true →
    ∃ t k, exec (.ldVxK x) s = .next t ∧ s.keyDown k = true ∧ (t.reg x).toNat = k.val ∧
      (∀ q, q ≠ x → t.reg q = s.reg q) ∧ t = { s with V := t.V, keyDraws := t.keyDraws }

/-! ### UNDEF -/

/-- UNDEF (R82): the words that are UNDEF are exactly those listed (family 0xE by the reading D5, U16); each executes as
a no-op, whose only effect in a step is the pc advance by 2. The instructions with this operation are undef8XY8,
undef8XY9, undef8XYA, undef8XYB, undef8XYC, undef8XYD, undef8XYF, undefE and undefF. -/
def Obligations.UndefIsNoOp : Prop :=
  (∀ w : Word, (decodeWord w).op = .UNDEF ↔
    (family w = 0x8 ∧ fieldN w ∈ [0x8, 0x9, 0xA, 0xB, 0xC, 0xD, 0xF]) ∨
    (family w = 0xE ∧ fieldNN w ∉ [0x9E, 0xA1]) ∨
    (family w = 0xF ∧ fieldNN w ∉ [0x07, 0x0A, 0x15, 0x18, 0x1E, 0x29, 0x33, 0x55, 0x65])) ∧
  (∀ (i : Instr) (s : State), i.op = .UNDEF → exec i s = .next s) ∧
  ∀ s : State, s.fault = none → s.pc.toNat ≤ 0xFFE → (decodeWord s.fetchWord).op = .UNDEF →
    blockStep s = .next { s with pc := s.pc + 2 }

/-! ### Events and the sequencer -/

/-- The tick (R250), in an unfaulted block: each timer above 0 counts down by 1, none goes below 0, `tone` is 1 exactly
where ST was above 0, nothing else changes. -/
def Obligations.TickCountsDown : Prop :=
  ∀ s : State, s.fault = none →
    tick s = { s with DT := (tick s).DT, ST := (tick s).ST, tone := (tick s).tone } ∧
    (tick s).DT.toNat = s.DT.toNat - 1 ∧ (tick s).ST.toNat = s.ST.toNat - 1 ∧
    ((tick s).tone = true ↔ 0 < s.ST.toNat)

/-- After k ticks a timer that held d reads max(d - k, 0) (R250; R251 and R289 as log entry 26 reads them). -/
def Obligations.TimersAfterManyTicks : Prop :=
  ∀ (k : Nat) (s : State), s.fault = none →
    (tick^[k] s).DT.toNat = s.DT.toNat - k ∧ (tick^[k] s).ST.toNat = s.ST.toNat - k

/-- One slice of a running machine (R271, R251): its steps run to the end with the keypad, `tone` and the host's input
as they were, then one step of the sequencer ticks once, presents and polls: the timers count down once however many
steps ran, `dirty` is clear, the keypad and `run_state` are as the poll's key updates and then its signals leave them
(the order of log entry 24, from R275 and D33), and the next slice has all its steps ahead. A slice whose poll carries
no reset. How the loop is cut into steps is the model's choice (log entry 6). -/
def Obligations.OneTickPerSlice : Prop :=
  ∀ s : State, s.runState = .Running → NoResetNext s →
    ∃ u t, runFor s.stepsLeft s = .next u ∧ u.runState = .Running ∧ u.stepsLeft = 0 ∧ u.key = s.key ∧
      u.tone = s.tone ∧ u.inbox = s.inbox ∧ u.params = s.params ∧
      step u = .next t ∧ t.dirty = false ∧ t.stepsLeft = s.params.stepsPerSlice ∧ t.inbox = s.inbox.tail ∧
      PollDelivered u t ∧
      (u.fault = none →
        t.DT.toNat = u.DT.toNat - 1 ∧ t.ST.toNat = u.ST.toNat - 1 ∧ t.tone = decide (0 < u.ST.toNat)) ∧
      t.V = u.V ∧ t.I = u.I ∧ t.pc = u.pc ∧ t.sp = u.sp ∧ t.stack = u.stack ∧ t.disp = u.disp ∧ t.mem = u.mem ∧
      t.fault = u.fault

/-- While paused the block receives no step and no tick and the display is not presented (R272): without a reset signal,
all block state but the keypad, which the host writes, holds its value, `dirty` too. The slice is only its poll: the
keypad and `run_state` are as the poll's key updates and then its signals leave them (the order of log entry 24), and
the poll is used up. That one step is one paused slice is the model's choice (log entry 6). -/
def Obligations.PausedHoldsBlock : Prop :=
  ∀ s t : State, s.runState = .Paused → NoResetNext s → step s = .next t →
    BlockHeld s t ∧ t.dirty = s.dirty ∧ PollDelivered s t ∧ t.inbox = s.inbox.tail ∧
      t.stepsLeft = s.params.stepsPerSlice

/-- What a poll does, whatever it carries, a reset among it: a paused step is the poll, and the step that ends a running
slice polls after the tick and the presentation (R271; log entry 6). The head of the coming polls is the one taken, or
nothing where none is coming (log entry 8). Its key updates write the keypad, the last update of a key deciding, and
nothing else (R263); then each signal in its order does what R270 says (R275; the order of keys and signals is log entry
24). -/
def Obligations.PollDeliversKeysAndSignals : Prop :=
  (∀ s : State, s.runState = .Paused → step s = .next (pollInput s)) ∧
  (∀ s : State, s.runState = .Running → s.stepsLeft = 0 → step s = .next (pollInput (present (tick s)))) ∧
  (∀ (s : State) (p : Poll) (ps : List Poll), s.inbox = p :: ps →
    pollInput s = { applyPoll { s with inbox := ps } p with stepsLeft := s.params.stepsPerSlice }) ∧
  (∀ s : State, s.inbox = [] → pollInput s = { s with stepsLeft := s.params.stepsPerSlice }) ∧
  (∀ (s : State) (keys : List (KeyIdx × Bool)),
    ∃ t, applyPoll s ⟨keys, []⟩ = t ∧ t = { s with key := t.key } ∧
      ∀ k, t.keyDown k = lastUpdate keys k (s.keyDown k)) ∧
  ∀ (s : State) (keys : List (KeyIdx × Bool)) (gs : List Signal) (g : Signal),
    applyPoll s ⟨keys, gs ++ [g]⟩ = handleSignal (applyPoll s ⟨keys, gs⟩) g

/-- The transitions of `run_state` (R270), and what a signal does besides: quit and pause toggle change nothing else,
reset reinitialises the block, and in Quit no signal changes anything. That in Quit any number of steps answers the same
state is the model's choice (log entry 9): the spec ends the run there. -/
def Obligations.RunStateTransitions : Prop :=
  ∀ s : State,
    (s.runState ≠ .Quit → handleSignal s .quit = { s with runState := .Quit }) ∧
    (s.runState = .Running → handleSignal s .pauseToggle = { s with runState := .Paused }) ∧
    (s.runState = .Paused → handleSignal s .pauseToggle = { s with runState := .Running }) ∧
    (s.runState ≠ .Quit → handleSignal s .reset = { blockReset s with runState := .Running }) ∧
    (s.runState = .Quit → (∀ g, handleSignal s g = s) ∧ ∀ k, runFor k s = .next s)

/-- Signals of one poll are handled one at a time in their order, and a quit ends the poll (R275): what stands after it
has no effect; key updates of the poll are applied before. -/
def Obligations.QuitEndsThePoll : Prop :=
  ∀ (s : State) (keys : List (KeyIdx × Bool)) (before after : List Signal),
    applyPoll s ⟨keys, before ++ .quit :: after⟩ = applyPoll s ⟨keys, before ++ [.quit]⟩ ∧
    (applyPoll s ⟨keys, before ++ .quit :: after⟩).runState = .Quit

/-- The reset event (R280, R283) leaves every block element at the value of R38, memory byte by byte with the FONT and
ROM of the parameters; a reset signal from Running or Paused is this event, and the sequencer then sets Running. That
the event keeps the host's data, the slice's count and the two draw counters of the model is the model's choice (log
entries 7, 4 and 5; the random source itself is not reset by R283). -/
def Obligations.ResetReinitialisesBlock : Prop :=
  ∀ s : State, s.params.wf →
    (∀ r, (blockReset s).reg r = 0) ∧ (blockReset s).I = 0 ∧ (blockReset s).pc = 0x200 ∧ (blockReset s).sp = 0 ∧
    (∀ k, ∀ h : k < 12, (blockReset s).stack[k] = 0) ∧ (blockReset s).DT = 0 ∧ (blockReset s).ST = 0 ∧
    (∀ k, k < 2048 → (blockReset s).disp.cell k = false) ∧ (∀ k, (blockReset s).keyDown k = false) ∧
    (∀ a, ∀ h : a < 80, (blockReset s).readByte a = s.params.font[a]) ∧
    (∀ k, ∀ h : k < s.params.rom.length, (blockReset s).readByte (0x200 + k) = s.params.rom[k]) ∧
    (∀ a, 80 ≤ a → a < 4096 → (a < 0x200 ∨ 0x200 + s.params.rom.length ≤ a) → (blockReset s).readByte a = 0) ∧
    (blockReset s).dirty = false ∧ (blockReset s).tone = false ∧ (blockReset s).fault = none ∧
    HostHeld s (blockReset s) ∧
    (s.runState ≠ .Quit → handleSignal s .reset = { blockReset s with runState := .Running })

/-- The state `State.reset` is the machine created for the default parameters: block reset, Running, no input coming.
Its font bytes are the default FONT, which is PRESUMED (log entry 2), its ROM empty and its slice of 16 steps are the
model's choices (log entries 10 and 3), so this is a statement about the model's reset state. -/
def Obligations.ResetStateIsCreated : Prop :=
  State.reset = State.create Params.default ∧ State.reset.runState = .Running ∧ State.reset.inbox = []

/-! ### Memory -/

/-- Two canonical memories that read the same at every address are the same data (the model's representation, log entry
17). -/
def Obligations.CanonicalMemoryIsUnique : Prop :=
  ∀ m m' : Memory, m.wf → m'.wf → (∀ a, m.read a = m'.read a) → m = m'

/-! ### Invariants -/

/-- The invariants hold of every machine that is created for parameters the spec allows. The canonical form of memory is
the model's representation (log entry 17). -/
def Obligations.CreatedMachineMeetsInvariants : Prop :=
  ∀ p : Params, p.wf → (State.create p).MemoryCanonical ∧ (State.create p).FaultRecordCurrent ∧ (State.create p).PcBounded

/-- Every step keeps memory in its canonical form (log entry 17). -/
def Obligations.StepKeepsMemoryCanonical : Prop :=
  ∀ s t : State, s.MemoryCanonical → step s = .next t → t.MemoryCanonical

/-- Every step keeps a recorded fault the fault of the instruction at pc: its address is pc and its opcode the word
fetched there (R34, R242, R243, R244). -/
def Obligations.StepKeepsFaultRecordCurrent : Prop :=
  ∀ s t : State, s.FaultRecordCurrent → step s = .next t → t.FaultRecordCurrent

/-- Every step keeps pc at most 0x10FE and every return address at most 0x1000: pc never wraps (92_eei_decisions.md D11,
from R56, R104 and R105). -/
def Obligations.StepKeepsPcBounded : Prop :=
  ∀ s t : State, s.PcBounded → step s = .next t → t.PcBounded
end

