-- ==== Sys2Proof/Laws/Decode.lean ====
section
/-! SUPPORT. The fields of a word put together from its parts, and the parts of a word put together again (R72,
R73). -/

namespace Sys2Proof

@[simp] theorem regOf_bitsOf (r : RegIdx) : regOf (bitsOf r) = r := rfl

@[simp] theorem bitsOf_regOf (b : Nibble) : bitsOf (regOf b) = b := rfl

/-- The decoder splits a word into its fields and dispatches on them (R72, R75). -/
theorem decodeWord_eq (w : Word) : decodeWord w =
    decodeFields (family w) (fieldX w) (fieldY w) (fieldN w) (fieldNN w) (fieldNNN w) := rfl

/-! ### The fields of a word put together from its parts -/

@[simp] theorem family_wordXYN (f x y n : Nibble) : family (wordXYN f x y n) = f := by
  apply BitVec.eq_of_getLsbD_eq
  intro i hi
  simp only [family, wordXYN, BitVec.getLsbD_extractLsb', BitVec.getLsbD_append]
  split_ifs <;> grind

@[simp] theorem fieldX_wordXYN (f x y n : Nibble) : fieldX (wordXYN f x y n) = x := by
  apply BitVec.eq_of_getLsbD_eq
  intro i hi
  simp only [fieldX, wordXYN, BitVec.getLsbD_extractLsb', BitVec.getLsbD_append]
  split_ifs <;> grind

@[simp] theorem fieldY_wordXYN (f x y n : Nibble) : fieldY (wordXYN f x y n) = y := by
  apply BitVec.eq_of_getLsbD_eq
  intro i hi
  simp only [fieldY, wordXYN, BitVec.getLsbD_extractLsb', BitVec.getLsbD_append]
  split_ifs <;> grind

@[simp] theorem fieldN_wordXYN (f x y n : Nibble) : fieldN (wordXYN f x y n) = n := by
  apply BitVec.eq_of_getLsbD_eq
  intro i hi
  simp only [fieldN, wordXYN, BitVec.getLsbD_extractLsb', BitVec.getLsbD_append]
  split_ifs <;> grind

@[simp] theorem family_wordXNN (f x : Nibble) (nn : Byte) : family (wordXNN f x nn) = f := by
  apply BitVec.eq_of_getLsbD_eq
  intro i hi
  simp only [family, wordXNN, BitVec.getLsbD_extractLsb', BitVec.getLsbD_append]
  split_ifs <;> grind

@[simp] theorem fieldX_wordXNN (f x : Nibble) (nn : Byte) : fieldX (wordXNN f x nn) = x := by
  apply BitVec.eq_of_getLsbD_eq
  intro i hi
  simp only [fieldX, wordXNN, BitVec.getLsbD_extractLsb', BitVec.getLsbD_append]
  split_ifs <;> grind

@[simp] theorem fieldNN_wordXNN (f x : Nibble) (nn : Byte) : fieldNN (wordXNN f x nn) = nn := by
  apply BitVec.eq_of_getLsbD_eq
  intro i hi
  simp only [fieldNN, wordXNN, BitVec.getLsbD_extractLsb', BitVec.getLsbD_append]
  split_ifs <;> grind

@[simp] theorem family_wordNNN (f : Nibble) (nnn : Addr12) : family (wordNNN f nnn) = f := by
  apply BitVec.eq_of_getLsbD_eq
  intro i hi
  simp only [family, wordNNN, BitVec.getLsbD_extractLsb', BitVec.getLsbD_append]
  split_ifs <;> grind

@[simp] theorem fieldNNN_wordNNN (f : Nibble) (nnn : Addr12) : fieldNNN (wordNNN f nnn) = nnn := by
  apply BitVec.eq_of_getLsbD_eq
  intro i hi
  simp only [fieldNNN, wordNNN, BitVec.getLsbD_extractLsb', BitVec.getLsbD_append]
  split_ifs <;> grind

@[simp] theorem fieldNN_wordNNN (f : Nibble) (nnn : Addr12) : fieldNN (wordNNN f nnn) = nnn.setWidth 8 := by
  apply BitVec.eq_of_getLsbD_eq
  intro i hi
  simp only [fieldNN, wordNNN, BitVec.getLsbD_extractLsb', BitVec.getLsbD_append, BitVec.getLsbD_setWidth]
  split_ifs <;> grind

/-! ### A word put together again from its own fields -/

@[simp] theorem wordXYN_fields (w : Word) : wordXYN (family w) (fieldX w) (fieldY w) (fieldN w) = w := by
  apply BitVec.eq_of_getLsbD_eq
  intro i hi
  simp only [wordXYN, family, fieldX, fieldY, fieldN, BitVec.getLsbD_extractLsb', BitVec.getLsbD_append]
  split_ifs <;> grind

@[simp] theorem wordXNN_fields (w : Word) : wordXNN (family w) (fieldX w) (fieldNN w) = w := by
  apply BitVec.eq_of_getLsbD_eq
  intro i hi
  simp only [wordXNN, family, fieldX, fieldNN, BitVec.getLsbD_extractLsb', BitVec.getLsbD_append]
  split_ifs <;> grind

@[simp] theorem wordNNN_fields (w : Word) : wordNNN (family w) (fieldNNN w) = w := by
  apply BitVec.eq_of_getLsbD_eq
  intro i hi
  simp only [wordNNN, family, fieldNNN, BitVec.getLsbD_extractLsb', BitVec.getLsbD_append]
  split_ifs <;> grind

@[simp] theorem fieldNNN_setWidth (w : Word) : (fieldNNN w).setWidth 8 = fieldNN w := by
  apply BitVec.eq_of_getLsbD_eq
  intro i hi
  simp only [fieldNNN, fieldNN, BitVec.getLsbD_extractLsb', BitVec.getLsbD_setWidth]
  grind

theorem wordNNN_append (f x : Nibble) (nn : Byte) : wordNNN f (x ++ nn) = wordXNN f x nn := by
  apply BitVec.eq_of_getLsbD_eq
  intro i hi
  simp only [wordNNN, wordXNN, BitVec.getLsbD_append]
  split_ifs <;> grind

/-- The bytes of a word, high byte first, are that word again (R54). -/
@[simp] theorem wordBytes_append (w : Word) : w.extractLsb' 8 8 ++ w.extractLsb' 0 8 = w := by
  apply BitVec.eq_of_getLsbD_eq
  intro i hi
  simp only [BitVec.getLsbD_extractLsb', BitVec.getLsbD_append]
  split_ifs <;> grind

/-- The decoder on the bytes of a word. -/
@[simp] theorem decode_wordBytes (w : Word) : decode (wordBytes w) = .ok (decodeWord w, []) := by
  simp [decode, wordBytes]


/-- In family 0xE a low byte that is none of the listed ones is UNDEF (R82). -/
theorem decodeFamilyE_undef (x : RegIdx) (nn : Byte) (h : ∀ b ∈ definedE, nn ≠ b) :
    decodeFamilyE x nn = .undefE x nn := by
  simp [definedE] at h
  simp [decodeFamilyE, h]

/-- In family 0xF a low byte that is none of the listed ones is UNDEF (R82). -/
theorem decodeFamilyF_undef (x : RegIdx) (nn : Byte) (h : ∀ b ∈ definedF, nn ≠ b) :
    decodeFamilyF x nn = .undefF x nn := by
  simp [definedF] at h
  simp [decodeFamilyF, h]

end Sys2Proof
end

