-- ==== Sys2Proof/Laws/Exec.lean ====
section
/-! SUPPORT. The meaning each arm of `exec` calls, so that no proof unfolds the dispatch. -/

namespace Sys2Proof.Machine

variable (s : State)

@[simp] theorem exec_cls (pad : Nibble) : exec (.cls pad) s = execCls s := rfl
@[simp] theorem exec_ret (pad : Nibble) : exec (.ret pad) s = execRet pad s := rfl
@[simp] theorem exec_sys (nnn : Addr12) : exec (.sys nnn) s = execSys nnn s := rfl
@[simp] theorem exec_jp (nnn : Addr12) : exec (.jp nnn) s = execJp nnn s := rfl
@[simp] theorem exec_call (nnn : Addr12) : exec (.call nnn) s = execCall nnn s := rfl
@[simp] theorem exec_seImm (x : RegIdx) (nn : Byte) : exec (.seImm x nn) s = execSeImm x nn s := rfl
@[simp] theorem exec_sneImm (x : RegIdx) (nn : Byte) : exec (.sneImm x nn) s = execSneImm x nn s := rfl
@[simp] theorem exec_seReg (x : RegIdx) (y : RegIdx) (pad : Nibble) : exec (.seReg x y pad) s = execSeReg x y s := rfl
@[simp] theorem exec_ldImm (x : RegIdx) (nn : Byte) : exec (.ldImm x nn) s = execLdImm x nn s := rfl
@[simp] theorem exec_addImm (x : RegIdx) (nn : Byte) : exec (.addImm x nn) s = execAddImm x nn s := rfl
@[simp] theorem exec_ldReg (x : RegIdx) (y : RegIdx) : exec (.ldReg x y) s = execLdReg x y s := rfl
@[simp] theorem exec_orReg (x : RegIdx) (y : RegIdx) : exec (.orReg x y) s = execOrReg x y s := rfl
@[simp] theorem exec_andReg (x : RegIdx) (y : RegIdx) : exec (.andReg x y) s = execAndReg x y s := rfl
@[simp] theorem exec_xorReg (x : RegIdx) (y : RegIdx) : exec (.xorReg x y) s = execXorReg x y s := rfl
@[simp] theorem exec_addReg (x : RegIdx) (y : RegIdx) : exec (.addReg x y) s = execAddReg x y s := rfl
@[simp] theorem exec_subReg (x : RegIdx) (y : RegIdx) : exec (.subReg x y) s = execSubReg x y s := rfl
@[simp] theorem exec_shr (x : RegIdx) (y : RegIdx) : exec (.shr x y) s = execShr x y s := rfl
@[simp] theorem exec_subnReg (x : RegIdx) (y : RegIdx) : exec (.subnReg x y) s = execSubnReg x y s := rfl
@[simp] theorem exec_shl (x : RegIdx) (y : RegIdx) : exec (.shl x y) s = execShl x y s := rfl
@[simp] theorem exec_undef8XY8 (x : RegIdx) (y : RegIdx) : exec (.undef8XY8 x y) s = execUndef8XY8 s := rfl
@[simp] theorem exec_undef8XY9 (x : RegIdx) (y : RegIdx) : exec (.undef8XY9 x y) s = execUndef8XY9 s := rfl
@[simp] theorem exec_undef8XYA (x : RegIdx) (y : RegIdx) : exec (.undef8XYA x y) s = execUndef8XYA s := rfl
@[simp] theorem exec_undef8XYB (x : RegIdx) (y : RegIdx) : exec (.undef8XYB x y) s = execUndef8XYB s := rfl
@[simp] theorem exec_undef8XYC (x : RegIdx) (y : RegIdx) : exec (.undef8XYC x y) s = execUndef8XYC s := rfl
@[simp] theorem exec_undef8XYD (x : RegIdx) (y : RegIdx) : exec (.undef8XYD x y) s = execUndef8XYD s := rfl
@[simp] theorem exec_undef8XYF (x : RegIdx) (y : RegIdx) : exec (.undef8XYF x y) s = execUndef8XYF s := rfl
@[simp] theorem exec_sneReg (x : RegIdx) (y : RegIdx) (pad : Nibble) : exec (.sneReg x y pad) s = execSneReg x y s := rfl
@[simp] theorem exec_ldI (nnn : Addr12) : exec (.ldI nnn) s = execLdI nnn s := rfl
@[simp] theorem exec_jpV0 (nnn : Addr12) : exec (.jpV0 nnn) s = execJpV0 nnn s := rfl
@[simp] theorem exec_rnd (x : RegIdx) (nn : Byte) : exec (.rnd x nn) s = execRnd x nn s := rfl
@[simp] theorem exec_drw (x : RegIdx) (y : RegIdx) (n : Nibble) : exec (.drw x y n) s = execDrw x y n s := rfl
@[simp] theorem exec_skp (x : RegIdx) : exec (.skp x) s = execSkp x s := rfl
@[simp] theorem exec_sknp (x : RegIdx) : exec (.sknp x) s = execSknp x s := rfl
@[simp] theorem exec_undefE (x : RegIdx) (nn : Byte) : exec (.undefE x nn) s = execUndefE s := rfl
@[simp] theorem exec_ldVxDT (x : RegIdx) : exec (.ldVxDT x) s = execLdVxDT x s := rfl
@[simp] theorem exec_ldVxK (x : RegIdx) : exec (.ldVxK x) s = execLdVxK x s := rfl
@[simp] theorem exec_ldDTVx (x : RegIdx) : exec (.ldDTVx x) s = execLdDTVx x s := rfl
@[simp] theorem exec_ldSTVx (x : RegIdx) : exec (.ldSTVx x) s = execLdSTVx x s := rfl
@[simp] theorem exec_addI (x : RegIdx) : exec (.addI x) s = execAddI x s := rfl
@[simp] theorem exec_ldF (x : RegIdx) : exec (.ldF x) s = execLdF x s := rfl
@[simp] theorem exec_ldB (x : RegIdx) : exec (.ldB x) s = execLdB x s := rfl
@[simp] theorem exec_store (x : RegIdx) : exec (.store x) s = execStore x s := rfl
@[simp] theorem exec_load (x : RegIdx) : exec (.load x) s = execLoad x s := rfl
@[simp] theorem exec_undefF (x : RegIdx) (nn : Byte) : exec (.undefF x nn) s = execUndefF s := rfl

end Sys2Proof.Machine
end

