-- ==== Sys2Proof/Laws/State.lean ====
section
/-! SUPPORT. What each update of the state does to each field, so that no proof unfolds a record update. -/

namespace Sys2Proof.Machine

variable (s : State)

/-! ### setReg -/

@[simp] theorem setReg_I (r : RegIdx) (b : Byte) : (s.setReg r b).I = s.I := rfl
@[simp] theorem setReg_pc (r : RegIdx) (b : Byte) : (s.setReg r b).pc = s.pc := rfl
@[simp] theorem setReg_sp (r : RegIdx) (b : Byte) : (s.setReg r b).sp = s.sp := rfl
@[simp] theorem setReg_stack (r : RegIdx) (b : Byte) : (s.setReg r b).stack = s.stack := rfl
@[simp] theorem setReg_DT (r : RegIdx) (b : Byte) : (s.setReg r b).DT = s.DT := rfl
@[simp] theorem setReg_ST (r : RegIdx) (b : Byte) : (s.setReg r b).ST = s.ST := rfl
@[simp] theorem setReg_disp (r : RegIdx) (b : Byte) : (s.setReg r b).disp = s.disp := rfl
@[simp] theorem setReg_key (r : RegIdx) (b : Byte) : (s.setReg r b).key = s.key := rfl
@[simp] theorem setReg_mem (r : RegIdx) (b : Byte) : (s.setReg r b).mem = s.mem := rfl
@[simp] theorem setReg_dirty (r : RegIdx) (b : Byte) : (s.setReg r b).dirty = s.dirty := rfl
@[simp] theorem setReg_tone (r : RegIdx) (b : Byte) : (s.setReg r b).tone = s.tone := rfl
@[simp] theorem setReg_fault (r : RegIdx) (b : Byte) : (s.setReg r b).fault = s.fault := rfl
@[simp] theorem setReg_runState (r : RegIdx) (b : Byte) : (s.setReg r b).runState = s.runState := rfl
@[simp] theorem setReg_stepsLeft (r : RegIdx) (b : Byte) : (s.setReg r b).stepsLeft = s.stepsLeft := rfl
@[simp] theorem setReg_inbox (r : RegIdx) (b : Byte) : (s.setReg r b).inbox = s.inbox := rfl
@[simp] theorem setReg_params (r : RegIdx) (b : Byte) : (s.setReg r b).params = s.params := rfl
@[simp] theorem setReg_randDraws (r : RegIdx) (b : Byte) : (s.setReg r b).randDraws = s.randDraws := rfl
@[simp] theorem setReg_keyDraws (r : RegIdx) (b : Byte) : (s.setReg r b).keyDraws = s.keyDraws := rfl

/-- A register read after a register write. -/
@[simp] theorem reg_setReg (r q : RegIdx) (b : Byte) : (s.setReg r b).reg q = if q = r then b else s.reg q := by
  simp only [State.reg, State.setReg, Vector.getElem_set, Fin.ext_iff, eq_comm]

/-! ### setI, setPc, advancePc, rewindPc -/

@[simp] theorem setI_V (w : Word) : (s.setI w).V = s.V := rfl
@[simp] theorem setI_pc (w : Word) : (s.setI w).pc = s.pc := rfl
@[simp] theorem setI_sp (w : Word) : (s.setI w).sp = s.sp := rfl
@[simp] theorem setI_stack (w : Word) : (s.setI w).stack = s.stack := rfl
@[simp] theorem setI_DT (w : Word) : (s.setI w).DT = s.DT := rfl
@[simp] theorem setI_ST (w : Word) : (s.setI w).ST = s.ST := rfl
@[simp] theorem setI_disp (w : Word) : (s.setI w).disp = s.disp := rfl
@[simp] theorem setI_key (w : Word) : (s.setI w).key = s.key := rfl
@[simp] theorem setI_mem (w : Word) : (s.setI w).mem = s.mem := rfl
@[simp] theorem setI_dirty (w : Word) : (s.setI w).dirty = s.dirty := rfl
@[simp] theorem setI_tone (w : Word) : (s.setI w).tone = s.tone := rfl
@[simp] theorem setI_fault (w : Word) : (s.setI w).fault = s.fault := rfl
@[simp] theorem setI_runState (w : Word) : (s.setI w).runState = s.runState := rfl
@[simp] theorem setI_stepsLeft (w : Word) : (s.setI w).stepsLeft = s.stepsLeft := rfl
@[simp] theorem setI_inbox (w : Word) : (s.setI w).inbox = s.inbox := rfl
@[simp] theorem setI_params (w : Word) : (s.setI w).params = s.params := rfl
@[simp] theorem setI_randDraws (w : Word) : (s.setI w).randDraws = s.randDraws := rfl
@[simp] theorem setI_keyDraws (w : Word) : (s.setI w).keyDraws = s.keyDraws := rfl
@[simp] theorem setI_I (w : Word) : (s.setI w).I = w := rfl

@[simp] theorem setPc_V (w : Word) : (s.setPc w).V = s.V := rfl
@[simp] theorem setPc_I (w : Word) : (s.setPc w).I = s.I := rfl
@[simp] theorem setPc_sp (w : Word) : (s.setPc w).sp = s.sp := rfl
@[simp] theorem setPc_stack (w : Word) : (s.setPc w).stack = s.stack := rfl
@[simp] theorem setPc_DT (w : Word) : (s.setPc w).DT = s.DT := rfl
@[simp] theorem setPc_ST (w : Word) : (s.setPc w).ST = s.ST := rfl
@[simp] theorem setPc_disp (w : Word) : (s.setPc w).disp = s.disp := rfl
@[simp] theorem setPc_key (w : Word) : (s.setPc w).key = s.key := rfl
@[simp] theorem setPc_mem (w : Word) : (s.setPc w).mem = s.mem := rfl
@[simp] theorem setPc_dirty (w : Word) : (s.setPc w).dirty = s.dirty := rfl
@[simp] theorem setPc_tone (w : Word) : (s.setPc w).tone = s.tone := rfl
@[simp] theorem setPc_fault (w : Word) : (s.setPc w).fault = s.fault := rfl
@[simp] theorem setPc_runState (w : Word) : (s.setPc w).runState = s.runState := rfl
@[simp] theorem setPc_stepsLeft (w : Word) : (s.setPc w).stepsLeft = s.stepsLeft := rfl
@[simp] theorem setPc_inbox (w : Word) : (s.setPc w).inbox = s.inbox := rfl
@[simp] theorem setPc_params (w : Word) : (s.setPc w).params = s.params := rfl
@[simp] theorem setPc_randDraws (w : Word) : (s.setPc w).randDraws = s.randDraws := rfl
@[simp] theorem setPc_keyDraws (w : Word) : (s.setPc w).keyDraws = s.keyDraws := rfl
@[simp] theorem setPc_pc (w : Word) : (s.setPc w).pc = w := rfl

@[simp] theorem advancePc_V : (s.advancePc).V = s.V := rfl
@[simp] theorem advancePc_I : (s.advancePc).I = s.I := rfl
@[simp] theorem advancePc_sp : (s.advancePc).sp = s.sp := rfl
@[simp] theorem advancePc_stack : (s.advancePc).stack = s.stack := rfl
@[simp] theorem advancePc_DT : (s.advancePc).DT = s.DT := rfl
@[simp] theorem advancePc_ST : (s.advancePc).ST = s.ST := rfl
@[simp] theorem advancePc_disp : (s.advancePc).disp = s.disp := rfl
@[simp] theorem advancePc_key : (s.advancePc).key = s.key := rfl
@[simp] theorem advancePc_mem : (s.advancePc).mem = s.mem := rfl
@[simp] theorem advancePc_dirty : (s.advancePc).dirty = s.dirty := rfl
@[simp] theorem advancePc_tone : (s.advancePc).tone = s.tone := rfl
@[simp] theorem advancePc_fault : (s.advancePc).fault = s.fault := rfl
@[simp] theorem advancePc_runState : (s.advancePc).runState = s.runState := rfl
@[simp] theorem advancePc_stepsLeft : (s.advancePc).stepsLeft = s.stepsLeft := rfl
@[simp] theorem advancePc_inbox : (s.advancePc).inbox = s.inbox := rfl
@[simp] theorem advancePc_params : (s.advancePc).params = s.params := rfl
@[simp] theorem advancePc_randDraws : (s.advancePc).randDraws = s.randDraws := rfl
@[simp] theorem advancePc_keyDraws : (s.advancePc).keyDraws = s.keyDraws := rfl
@[simp] theorem advancePc_pc : (s.advancePc).pc = s.pc + 2 := rfl

@[simp] theorem rewindPc_V : (s.rewindPc).V = s.V := rfl
@[simp] theorem rewindPc_I : (s.rewindPc).I = s.I := rfl
@[simp] theorem rewindPc_sp : (s.rewindPc).sp = s.sp := rfl
@[simp] theorem rewindPc_stack : (s.rewindPc).stack = s.stack := rfl
@[simp] theorem rewindPc_DT : (s.rewindPc).DT = s.DT := rfl
@[simp] theorem rewindPc_ST : (s.rewindPc).ST = s.ST := rfl
@[simp] theorem rewindPc_disp : (s.rewindPc).disp = s.disp := rfl
@[simp] theorem rewindPc_key : (s.rewindPc).key = s.key := rfl
@[simp] theorem rewindPc_mem : (s.rewindPc).mem = s.mem := rfl
@[simp] theorem rewindPc_dirty : (s.rewindPc).dirty = s.dirty := rfl
@[simp] theorem rewindPc_tone : (s.rewindPc).tone = s.tone := rfl
@[simp] theorem rewindPc_fault : (s.rewindPc).fault = s.fault := rfl
@[simp] theorem rewindPc_runState : (s.rewindPc).runState = s.runState := rfl
@[simp] theorem rewindPc_stepsLeft : (s.rewindPc).stepsLeft = s.stepsLeft := rfl
@[simp] theorem rewindPc_inbox : (s.rewindPc).inbox = s.inbox := rfl
@[simp] theorem rewindPc_params : (s.rewindPc).params = s.params := rfl
@[simp] theorem rewindPc_randDraws : (s.rewindPc).randDraws = s.randDraws := rfl
@[simp] theorem rewindPc_keyDraws : (s.rewindPc).keyDraws = s.keyDraws := rfl
@[simp] theorem rewindPc_pc : (s.rewindPc).pc = s.pc - 2 := rfl

@[simp] theorem reg_setI (w : Word) (q : RegIdx) : (s.setI w).reg q = s.reg q := rfl
@[simp] theorem reg_setPc (w : Word) (q : RegIdx) : (s.setPc w).reg q = s.reg q := rfl
@[simp] theorem reg_advancePc (q : RegIdx) : (s.advancePc).reg q = s.reg q := rfl
@[simp] theorem reg_rewindPc (q : RegIdx) : (s.rewindPc).reg q = s.reg q := rfl

/-! ### recordFault -/

@[simp] theorem recordFault_V (f : FaultRecord) : (s.recordFault f).V = s.V := by
 unfold State.recordFault; split <;> rfl
@[simp] theorem recordFault_I (f : FaultRecord) : (s.recordFault f).I = s.I := by
 unfold State.recordFault; split <;> rfl
@[simp] theorem recordFault_pc (f : FaultRecord) : (s.recordFault f).pc = s.pc := by
 unfold State.recordFault; split <;> rfl
@[simp] theorem recordFault_sp (f : FaultRecord) : (s.recordFault f).sp = s.sp := by
 unfold State.recordFault; split <;> rfl
@[simp] theorem recordFault_stack (f : FaultRecord) : (s.recordFault f).stack = s.stack := by
 unfold State.recordFault; split <;> rfl
@[simp] theorem recordFault_DT (f : FaultRecord) : (s.recordFault f).DT = s.DT := by
 unfold State.recordFault; split <;> rfl
@[simp] theorem recordFault_ST (f : FaultRecord) : (s.recordFault f).ST = s.ST := by
 unfold State.recordFault; split <;> rfl
@[simp] theorem recordFault_disp (f : FaultRecord) : (s.recordFault f).disp = s.disp := by
 unfold State.recordFault; split <;> rfl
@[simp] theorem recordFault_key (f : FaultRecord) : (s.recordFault f).key = s.key := by
 unfold State.recordFault; split <;> rfl
@[simp] theorem recordFault_mem (f : FaultRecord) : (s.recordFault f).mem = s.mem := by
 unfold State.recordFault; split <;> rfl
@[simp] theorem recordFault_dirty (f : FaultRecord) : (s.recordFault f).dirty = s.dirty := by
 unfold State.recordFault; split <;> rfl
@[simp] theorem recordFault_tone (f : FaultRecord) : (s.recordFault f).tone = s.tone := by
 unfold State.recordFault; split <;> rfl
@[simp] theorem recordFault_runState (f : FaultRecord) : (s.recordFault f).runState = s.runState := by
 unfold State.recordFault; split <;> rfl
@[simp] theorem recordFault_stepsLeft (f : FaultRecord) : (s.recordFault f).stepsLeft = s.stepsLeft := by
 unfold State.recordFault; split <;> rfl
@[simp] theorem recordFault_inbox (f : FaultRecord) : (s.recordFault f).inbox = s.inbox := by
 unfold State.recordFault; split <;> rfl
@[simp] theorem recordFault_params (f : FaultRecord) : (s.recordFault f).params = s.params := by
 unfold State.recordFault; split <;> rfl
@[simp] theorem recordFault_randDraws (f : FaultRecord) : (s.recordFault f).randDraws = s.randDraws := by
 unfold State.recordFault; split <;> rfl
@[simp] theorem recordFault_keyDraws (f : FaultRecord) : (s.recordFault f).keyDraws = s.keyDraws := by
 unfold State.recordFault; split <;> rfl

/-- A fault already recorded is never replaced (R242). -/
@[simp] theorem recordFault_fault (f : FaultRecord) : (s.recordFault f).fault = some (s.fault.getD f) := by
  unfold State.recordFault; split <;> simp_all

/-! ### setFlag, writeAlu -/

@[simp] theorem setFlag_I (f : Option Bool) : (s.setFlag f).I = s.I := by cases f <;> rfl
@[simp] theorem setFlag_pc (f : Option Bool) : (s.setFlag f).pc = s.pc := by cases f <;> rfl
@[simp] theorem setFlag_sp (f : Option Bool) : (s.setFlag f).sp = s.sp := by cases f <;> rfl
@[simp] theorem setFlag_stack (f : Option Bool) : (s.setFlag f).stack = s.stack := by cases f <;> rfl
@[simp] theorem setFlag_DT (f : Option Bool) : (s.setFlag f).DT = s.DT := by cases f <;> rfl
@[simp] theorem setFlag_ST (f : Option Bool) : (s.setFlag f).ST = s.ST := by cases f <;> rfl
@[simp] theorem setFlag_disp (f : Option Bool) : (s.setFlag f).disp = s.disp := by cases f <;> rfl
@[simp] theorem setFlag_key (f : Option Bool) : (s.setFlag f).key = s.key := by cases f <;> rfl
@[simp] theorem setFlag_mem (f : Option Bool) : (s.setFlag f).mem = s.mem := by cases f <;> rfl
@[simp] theorem setFlag_dirty (f : Option Bool) : (s.setFlag f).dirty = s.dirty := by cases f <;> rfl
@[simp] theorem setFlag_tone (f : Option Bool) : (s.setFlag f).tone = s.tone := by cases f <;> rfl
@[simp] theorem setFlag_fault (f : Option Bool) : (s.setFlag f).fault = s.fault := by cases f <;> rfl
@[simp] theorem setFlag_runState (f : Option Bool) : (s.setFlag f).runState = s.runState := by cases f <;> rfl
@[simp] theorem setFlag_stepsLeft (f : Option Bool) : (s.setFlag f).stepsLeft = s.stepsLeft := by cases f <;> rfl
@[simp] theorem setFlag_inbox (f : Option Bool) : (s.setFlag f).inbox = s.inbox := by cases f <;> rfl
@[simp] theorem setFlag_params (f : Option Bool) : (s.setFlag f).params = s.params := by cases f <;> rfl
@[simp] theorem setFlag_randDraws (f : Option Bool) : (s.setFlag f).randDraws = s.randDraws := by cases f <;> rfl
@[simp] theorem setFlag_keyDraws (f : Option Bool) : (s.setFlag f).keyDraws = s.keyDraws := by cases f <;> rfl

@[simp] theorem writeAlu_I (x : RegIdx) (o : AluOut) : (s.writeAlu x o).I = s.I := by simp [State.writeAlu]
@[simp] theorem writeAlu_pc (x : RegIdx) (o : AluOut) : (s.writeAlu x o).pc = s.pc := by simp [State.writeAlu]
@[simp] theorem writeAlu_sp (x : RegIdx) (o : AluOut) : (s.writeAlu x o).sp = s.sp := by simp [State.writeAlu]
@[simp] theorem writeAlu_stack (x : RegIdx) (o : AluOut) : (s.writeAlu x o).stack = s.stack := by simp [State.writeAlu]
@[simp] theorem writeAlu_DT (x : RegIdx) (o : AluOut) : (s.writeAlu x o).DT = s.DT := by simp [State.writeAlu]
@[simp] theorem writeAlu_ST (x : RegIdx) (o : AluOut) : (s.writeAlu x o).ST = s.ST := by simp [State.writeAlu]
@[simp] theorem writeAlu_disp (x : RegIdx) (o : AluOut) : (s.writeAlu x o).disp = s.disp := by simp [State.writeAlu]
@[simp] theorem writeAlu_key (x : RegIdx) (o : AluOut) : (s.writeAlu x o).key = s.key := by simp [State.writeAlu]
@[simp] theorem writeAlu_mem (x : RegIdx) (o : AluOut) : (s.writeAlu x o).mem = s.mem := by simp [State.writeAlu]
@[simp] theorem writeAlu_dirty (x : RegIdx) (o : AluOut) : (s.writeAlu x o).dirty = s.dirty := by simp [State.writeAlu]
@[simp] theorem writeAlu_tone (x : RegIdx) (o : AluOut) : (s.writeAlu x o).tone = s.tone := by simp [State.writeAlu]
@[simp] theorem writeAlu_fault (x : RegIdx) (o : AluOut) : (s.writeAlu x o).fault = s.fault := by simp [State.writeAlu]
@[simp] theorem writeAlu_runState (x : RegIdx) (o : AluOut) : (s.writeAlu x o).runState = s.runState := by simp [State.writeAlu]
@[simp] theorem writeAlu_stepsLeft (x : RegIdx) (o : AluOut) : (s.writeAlu x o).stepsLeft = s.stepsLeft := by simp [State.writeAlu]
@[simp] theorem writeAlu_inbox (x : RegIdx) (o : AluOut) : (s.writeAlu x o).inbox = s.inbox := by simp [State.writeAlu]
@[simp] theorem writeAlu_params (x : RegIdx) (o : AluOut) : (s.writeAlu x o).params = s.params := by simp [State.writeAlu]
@[simp] theorem writeAlu_randDraws (x : RegIdx) (o : AluOut) : (s.writeAlu x o).randDraws = s.randDraws := by simp [State.writeAlu]
@[simp] theorem writeAlu_keyDraws (x : RegIdx) (o : AluOut) : (s.writeAlu x o).keyDraws = s.keyDraws := by simp [State.writeAlu]

/-- A register read after result and flag are written: VF holds the flag where there is one (R132). -/
theorem reg_writeAlu (x q : RegIdx) (o : AluOut) :
    (s.writeAlu x o).reg q = match o.f with
      | some f => if q = VF then bit f else if q = x then o.r else s.reg q
      | none => if q = x then o.r else s.reg q := by
  cases h : o.f <;> simp [State.writeAlu, State.setFlag, h]

/-! ### loadBlock -/

@[simp] theorem loadBlock_I (x : RegIdx) : (s.loadBlock x).I = s.I := rfl
@[simp] theorem loadBlock_pc (x : RegIdx) : (s.loadBlock x).pc = s.pc := rfl
@[simp] theorem loadBlock_sp (x : RegIdx) : (s.loadBlock x).sp = s.sp := rfl
@[simp] theorem loadBlock_stack (x : RegIdx) : (s.loadBlock x).stack = s.stack := rfl
@[simp] theorem loadBlock_DT (x : RegIdx) : (s.loadBlock x).DT = s.DT := rfl
@[simp] theorem loadBlock_ST (x : RegIdx) : (s.loadBlock x).ST = s.ST := rfl
@[simp] theorem loadBlock_disp (x : RegIdx) : (s.loadBlock x).disp = s.disp := rfl
@[simp] theorem loadBlock_key (x : RegIdx) : (s.loadBlock x).key = s.key := rfl
@[simp] theorem loadBlock_mem (x : RegIdx) : (s.loadBlock x).mem = s.mem := rfl
@[simp] theorem loadBlock_dirty (x : RegIdx) : (s.loadBlock x).dirty = s.dirty := rfl
@[simp] theorem loadBlock_tone (x : RegIdx) : (s.loadBlock x).tone = s.tone := rfl
@[simp] theorem loadBlock_fault (x : RegIdx) : (s.loadBlock x).fault = s.fault := rfl
@[simp] theorem loadBlock_runState (x : RegIdx) : (s.loadBlock x).runState = s.runState := rfl
@[simp] theorem loadBlock_stepsLeft (x : RegIdx) : (s.loadBlock x).stepsLeft = s.stepsLeft := rfl
@[simp] theorem loadBlock_inbox (x : RegIdx) : (s.loadBlock x).inbox = s.inbox := rfl
@[simp] theorem loadBlock_params (x : RegIdx) : (s.loadBlock x).params = s.params := rfl
@[simp] theorem loadBlock_randDraws (x : RegIdx) : (s.loadBlock x).randDraws = s.randDraws := rfl
@[simp] theorem loadBlock_keyDraws (x : RegIdx) : (s.loadBlock x).keyDraws = s.keyDraws := rfl

/-- A register read after FX65's load of V0..Vx (R186). -/
@[simp] theorem reg_loadBlock (x q : RegIdx) :
    (s.loadBlock x).reg q = if q ≤ x then s.readByte (s.I.toNat + q.val) else s.reg q := by
  simp [State.reg, State.loadBlock]

/-! ### ack, present, tick, setKey -/

@[simp] theorem ack_V : (ack s).V = s.V := rfl
@[simp] theorem ack_I : (ack s).I = s.I := rfl
@[simp] theorem ack_pc : (ack s).pc = s.pc := rfl
@[simp] theorem ack_sp : (ack s).sp = s.sp := rfl
@[simp] theorem ack_stack : (ack s).stack = s.stack := rfl
@[simp] theorem ack_DT : (ack s).DT = s.DT := rfl
@[simp] theorem ack_ST : (ack s).ST = s.ST := rfl
@[simp] theorem ack_disp : (ack s).disp = s.disp := rfl
@[simp] theorem ack_key : (ack s).key = s.key := rfl
@[simp] theorem ack_mem : (ack s).mem = s.mem := rfl
@[simp] theorem ack_tone : (ack s).tone = s.tone := rfl
@[simp] theorem ack_fault : (ack s).fault = s.fault := rfl
@[simp] theorem ack_runState : (ack s).runState = s.runState := rfl
@[simp] theorem ack_stepsLeft : (ack s).stepsLeft = s.stepsLeft := rfl
@[simp] theorem ack_inbox : (ack s).inbox = s.inbox := rfl
@[simp] theorem ack_params : (ack s).params = s.params := rfl
@[simp] theorem ack_randDraws : (ack s).randDraws = s.randDraws := rfl
@[simp] theorem ack_keyDraws : (ack s).keyDraws = s.keyDraws := rfl
@[simp] theorem ack_dirty : (ack s).dirty = false := rfl

@[simp] theorem present_V : (present s).V = s.V := by
 unfold present; split <;> rfl
@[simp] theorem present_I : (present s).I = s.I := by
 unfold present; split <;> rfl
@[simp] theorem present_pc : (present s).pc = s.pc := by
 unfold present; split <;> rfl
@[simp] theorem present_sp : (present s).sp = s.sp := by
 unfold present; split <;> rfl
@[simp] theorem present_stack : (present s).stack = s.stack := by
 unfold present; split <;> rfl
@[simp] theorem present_DT : (present s).DT = s.DT := by
 unfold present; split <;> rfl
@[simp] theorem present_ST : (present s).ST = s.ST := by
 unfold present; split <;> rfl
@[simp] theorem present_disp : (present s).disp = s.disp := by
 unfold present; split <;> rfl
@[simp] theorem present_key : (present s).key = s.key := by
 unfold present; split <;> rfl
@[simp] theorem present_mem : (present s).mem = s.mem := by
 unfold present; split <;> rfl
@[simp] theorem present_tone : (present s).tone = s.tone := by
 unfold present; split <;> rfl
@[simp] theorem present_fault : (present s).fault = s.fault := by
 unfold present; split <;> rfl
@[simp] theorem present_runState : (present s).runState = s.runState := by
 unfold present; split <;> rfl
@[simp] theorem present_stepsLeft : (present s).stepsLeft = s.stepsLeft := by
 unfold present; split <;> rfl
@[simp] theorem present_inbox : (present s).inbox = s.inbox := by
 unfold present; split <;> rfl
@[simp] theorem present_params : (present s).params = s.params := by
 unfold present; split <;> rfl
@[simp] theorem present_randDraws : (present s).randDraws = s.randDraws := by
 unfold present; split <;> rfl
@[simp] theorem present_keyDraws : (present s).keyDraws = s.keyDraws := by
 unfold present; split <;> rfl
@[simp] theorem present_dirty : (present s).dirty = false := by
  unfold present; split <;> simp_all

@[simp] theorem tick_V : (tick s).V = s.V := by
 unfold tick; split <;> rfl
@[simp] theorem tick_I : (tick s).I = s.I := by
 unfold tick; split <;> rfl
@[simp] theorem tick_pc : (tick s).pc = s.pc := by
 unfold tick; split <;> rfl
@[simp] theorem tick_sp : (tick s).sp = s.sp := by
 unfold tick; split <;> rfl
@[simp] theorem tick_stack : (tick s).stack = s.stack := by
 unfold tick; split <;> rfl
@[simp] theorem tick_disp : (tick s).disp = s.disp := by
 unfold tick; split <;> rfl
@[simp] theorem tick_key : (tick s).key = s.key := by
 unfold tick; split <;> rfl
@[simp] theorem tick_mem : (tick s).mem = s.mem := by
 unfold tick; split <;> rfl
@[simp] theorem tick_dirty : (tick s).dirty = s.dirty := by
 unfold tick; split <;> rfl
@[simp] theorem tick_fault : (tick s).fault = s.fault := by
 unfold tick; split <;> rfl
@[simp] theorem tick_runState : (tick s).runState = s.runState := by
 unfold tick; split <;> rfl
@[simp] theorem tick_stepsLeft : (tick s).stepsLeft = s.stepsLeft := by
 unfold tick; split <;> rfl
@[simp] theorem tick_inbox : (tick s).inbox = s.inbox := by
 unfold tick; split <;> rfl
@[simp] theorem tick_params : (tick s).params = s.params := by
 unfold tick; split <;> rfl
@[simp] theorem tick_randDraws : (tick s).randDraws = s.randDraws := by
 unfold tick; split <;> rfl
@[simp] theorem tick_keyDraws : (tick s).keyDraws = s.keyDraws := by
 unfold tick; split <;> rfl

@[simp] theorem setKey_V (u : KeyIdx × Bool) : (setKey s u).V = s.V := rfl
@[simp] theorem setKey_I (u : KeyIdx × Bool) : (setKey s u).I = s.I := rfl
@[simp] theorem setKey_pc (u : KeyIdx × Bool) : (setKey s u).pc = s.pc := rfl
@[simp] theorem setKey_sp (u : KeyIdx × Bool) : (setKey s u).sp = s.sp := rfl
@[simp] theorem setKey_stack (u : KeyIdx × Bool) : (setKey s u).stack = s.stack := rfl
@[simp] theorem setKey_DT (u : KeyIdx × Bool) : (setKey s u).DT = s.DT := rfl
@[simp] theorem setKey_ST (u : KeyIdx × Bool) : (setKey s u).ST = s.ST := rfl
@[simp] theorem setKey_disp (u : KeyIdx × Bool) : (setKey s u).disp = s.disp := rfl
@[simp] theorem setKey_mem (u : KeyIdx × Bool) : (setKey s u).mem = s.mem := rfl
@[simp] theorem setKey_dirty (u : KeyIdx × Bool) : (setKey s u).dirty = s.dirty := rfl
@[simp] theorem setKey_tone (u : KeyIdx × Bool) : (setKey s u).tone = s.tone := rfl
@[simp] theorem setKey_fault (u : KeyIdx × Bool) : (setKey s u).fault = s.fault := rfl
@[simp] theorem setKey_runState (u : KeyIdx × Bool) : (setKey s u).runState = s.runState := rfl
@[simp] theorem setKey_stepsLeft (u : KeyIdx × Bool) : (setKey s u).stepsLeft = s.stepsLeft := rfl
@[simp] theorem setKey_inbox (u : KeyIdx × Bool) : (setKey s u).inbox = s.inbox := rfl
@[simp] theorem setKey_params (u : KeyIdx × Bool) : (setKey s u).params = s.params := rfl
@[simp] theorem setKey_randDraws (u : KeyIdx × Bool) : (setKey s u).randDraws = s.randDraws := rfl
@[simp] theorem setKey_keyDraws (u : KeyIdx × Bool) : (setKey s u).keyDraws = s.keyDraws := rfl

/-! ### blockReset -/

@[simp] theorem blockReset_runState : (blockReset s).runState = s.runState := rfl
@[simp] theorem blockReset_stepsLeft : (blockReset s).stepsLeft = s.stepsLeft := rfl
@[simp] theorem blockReset_inbox : (blockReset s).inbox = s.inbox := rfl
@[simp] theorem blockReset_params : (blockReset s).params = s.params := rfl
@[simp] theorem blockReset_randDraws : (blockReset s).randDraws = s.randDraws := rfl
@[simp] theorem blockReset_keyDraws : (blockReset s).keyDraws = s.keyDraws := rfl
@[simp] theorem blockReset_V : (blockReset s).V = Vector.replicate 16 0 := rfl
@[simp] theorem blockReset_I : (blockReset s).I = 0 := rfl
@[simp] theorem blockReset_pc : (blockReset s).pc = 0x200 := rfl
@[simp] theorem blockReset_sp : (blockReset s).sp = 0 := rfl
@[simp] theorem blockReset_stack : (blockReset s).stack = Vector.replicate 12 0 := rfl
@[simp] theorem blockReset_DT : (blockReset s).DT = 0 := rfl
@[simp] theorem blockReset_ST : (blockReset s).ST = 0 := rfl
@[simp] theorem blockReset_disp : (blockReset s).disp = Display.clear := rfl
@[simp] theorem blockReset_key : (blockReset s).key = Vector.replicate 16 false := rfl
@[simp] theorem blockReset_mem : (blockReset s).mem = imageMemory s.params.font s.params.rom := rfl
@[simp] theorem blockReset_dirty : (blockReset s).dirty = false := rfl
@[simp] theorem blockReset_tone : (blockReset s).tone = false := rfl
@[simp] theorem blockReset_fault : (blockReset s).fault = none := rfl

end Sys2Proof.Machine
end

