-- ==== Sys2Proof/Laws/Ops.lean ====
section
/-! SUPPORT. One lemma for each shared operation that says all it can do: memory reads and writes, the range check,
raising a fault, the stack, and the framebuffer's cells. -/

namespace Sys2Proof.Machine

/-! ### Memory -/

theorem read_filter (m : Memory) (a c : Nat) :
    Memory.read (m.filter (fun e => e.1 != a)) c = if c = a then Memory.blank a else m.read c := by
  induction m with
  | nil => simp only [List.filter_nil, Memory.read]; split <;> simp_all
  | cons e m ih =>
    obtain ⟨k, b⟩ := e
    by_cases hk : k = a
    · subst hk
      simp only [List.filter_cons, bne_self_eq_false, Bool.false_eq_true, if_false, ih, Memory.read]
      by_cases hc : c = k
      · simp [hc]
      · simp [hc, Ne.symm hc]
    · simp only [List.filter_cons, bne_iff_ne, ne_eq, hk, not_false_eq_true, if_true, Memory.read, ih]
      by_cases hkc : k = c
      · subst hkc; simp [hk]
      · simp [hkc]

theorem read_insert (m : Memory) (a c : Nat) (b : Byte) (h : ∀ e ∈ m, e.1 ≠ a) :
    (Memory.insert (a, b) m).read c = if c = a then b else m.read c := by
  induction m with
  | nil =>
    simp only [Memory.insert, Memory.read]
    by_cases hc : c = a
    · simp [hc]
    · simp [hc, Ne.symm hc]
  | cons e m ih =>
    obtain ⟨k, d⟩ := e
    have hk : k ≠ a := h (k, d) (by simp)
    have ih := ih fun e he => h e (by simp [he])
    simp only [Memory.insert]
    split
    · simp only [Memory.read]
      by_cases hc : c = a
      · simp [hc]
      · simp [hc, Ne.symm hc]
    · simp only [Memory.read, ih]
      by_cases hkc : k = c
      · subst hkc; simp [hk]
      · simp [hkc]

/-- A byte read after a byte write, in any memory (R59, R61). -/
theorem read_write (m : Memory) (a c : Nat) (b : Byte) (ha : a < 4096) :
    (m.write a b).read c = if c = a then b else m.read c := by
  simp only [Memory.write, ha, if_true]
  split
  · rename_i hb
    rw [read_filter, hb]
  · rw [read_insert _ _ _ _ (by simp), read_filter]
    split <;> rfl

/-- A byte read after bytes are written from address `a` up. -/
theorem read_writeBytes (bs : List Byte) (m : Memory) (a c : Nat) (h : a + bs.length ≤ 4096) :
    (m.writeBytes a bs).read c = if hc : a ≤ c ∧ c < a + bs.length then bs[c - a] else m.read c := by
  induction bs generalizing m a with
  | nil => simp [Memory.writeBytes]
  | cons b bs ih =>
    simp only [List.length_cons] at h
    rw [Memory.writeBytes, ih _ _ (by omega), read_write _ _ _ _ (by omega)]
    by_cases h1 : a + 1 ≤ c ∧ c < a + 1 + bs.length
    · have h2 : a ≤ c ∧ c < a + (b :: bs).length := by simp only [List.length_cons]; omega
      rw [dif_pos h1, dif_pos h2]
      have h3 : c - a = (c - (a + 1)) + 1 := by omega
      simp [h3]
    · rw [dif_neg h1]
      by_cases h2 : c = a
      · subst h2; simp
      · have h3 : ¬ (a ≤ c ∧ c < a + (b :: bs).length) := by simp only [List.length_cons]; omega
        rw [dif_neg h3, if_neg h2]

theorem mem_insert (m : Memory) (c e : Host.Cell) : e ∈ Memory.insert c m ↔ e = c ∨ e ∈ m := by
  induction m with
  | nil => simp [Memory.insert]
  | cons d m ih =>
    simp only [Memory.insert]
    split
    · simp
    · simp only [List.mem_cons, ih]; tauto

theorem insert_pairwise (m : Memory) (c : Host.Cell) (h : m.Pairwise (fun d e => d.1 < e.1))
    (hc : ∀ e ∈ m, e.1 ≠ c.1) : (Memory.insert c m).Pairwise (fun d e => d.1 < e.1) := by
  induction m with
  | nil => simp [Memory.insert]
  | cons d m ih =>
    rw [List.pairwise_cons] at h
    simp only [Memory.insert]
    split
    · rename_i hlt
      refine List.pairwise_cons.2 ⟨fun e he => ?_, List.pairwise_cons.2 h⟩
      rcases List.mem_cons.1 he with rfl | he
      · exact hlt
      · exact lt_trans hlt (h.1 e he)
    · rename_i hlt
      have hd : d.1 ≠ c.1 := hc d (by simp)
      refine List.pairwise_cons.2 ⟨fun e he => ?_, ih h.2 fun e he => hc e (by simp [he])⟩
      rcases (mem_insert m c e).1 he with rfl | he
      · omega
      · exact h.1 e he

/-- A byte write keeps the canonical form. -/
theorem write_wf (m : Memory) (a : Nat) (b : Byte) (h : m.wf) : (m.write a b).wf := by
  have hp : (m.filter (fun e => e.1 != a)).Pairwise (fun d e => d.1 < e.1) := h.1.filter _
  have hf : ∀ e ∈ m.filter (fun e => e.1 != a), e.1 < 4096 ∧ e.2 ≠ Memory.blank e.1 :=
    fun e he => h.2 e (List.mem_of_mem_filter he)
  unfold Memory.write
  split
  · rename_i ha
    dsimp only
    split
    · exact ⟨hp, hf⟩
    · rename_i hb
      refine ⟨insert_pairwise _ _ hp (by simp), fun e he => ?_⟩
      rcases (mem_insert _ _ _).1 he with rfl | he
      · exact ⟨ha, hb⟩
      · exact hf e he
  · exact h

/-- Writing bytes keeps the canonical form. -/
theorem writeBytes_wf (bs : List Byte) (m : Memory) (a : Nat) (h : m.wf) : (m.writeBytes a bs).wf := by
  induction bs generalizing m a with
  | nil => exact h
  | cons b bs ih => exact ih _ _ (write_wf _ _ _ h)

theorem nil_wf : Memory.wf [] := by simp [Memory.wf]

/-! ### The range check and faults -/

/-- The lowest address out of range: none where the access ends inside memory, else the larger of the base and 0x1000
(R57, R185). -/
theorem firstOutOfRange_eq (base count : Nat) :
    firstOutOfRange base count = if base + count ≤ 4096 ∨ count = 0 then none else some (max base 4096) := by
  unfold firstOutOfRange
  split
  · rename_i h
    simp only [List.find?_eq_none, List.mem_map, List.mem_range, decide_eq_true_eq, forall_exists_index, and_imp]
    omega
  · rename_i h
    rw [List.find?_eq_some_iff_getElem]
    refine ⟨by simp, max base 4096 - base, by simp; omega, by simp, fun j hj => ?_⟩
    simp; omega

/-- What raising a fault does, with none recorded before (R242, R243). -/
theorem raiseFault_eq (i : Instr) (kind : FaultKind) (info : Nat) (s : State) (h : s.fault = none) :
    raiseFault i kind info s =
      .next { s with pc := s.pc - 2, fault := some { kind := kind, pc := s.pc - 2, opcode := encode i, info := info } } := by
  simp [raiseFault, State.recordFault, State.rewindPc, State.setPc, h]

/-- A guarded data access whose addresses are all in range has its effect. -/
theorem guardData_inRange (i : Instr) (count : Nat) (s : State) (effect : State → State)
    (h : s.I.toNat + count ≤ 4096 ∨ count = 0) : guardData i count s effect = .next (effect s) := by
  simp [guardData, firstOutOfRange_eq, h]

/-- A guarded data access that leaves memory raises DataOutOfRange with the lowest such address (R57). -/
theorem guardData_outOfRange (i : Instr) (count : Nat) (s : State) (effect : State → State)
    (h : 4096 < s.I.toNat + count) (hc : count ≠ 0) :
    guardData i count s effect = raiseFault i .DataOutOfRange (max s.I.toNat 4096) s := by
  have h' : ¬ (s.I.toNat + count ≤ 4096 ∨ count = 0) := by omega
  simp [guardData, firstOutOfRange_eq, h']

/-! ### The stack -/

theorem push_eq (s : State) (w : Word) (h : s.sp.val < 12) :
    s.push w = some { s with stack := s.stack.set s.sp.val w h, sp := ⟨s.sp.val + 1, by omega⟩ } := by
  simp [State.push, h]

theorem push_full (s : State) (w : Word) (h : s.sp.val = 12) : s.push w = none := by
  simp [State.push, h]

theorem pop_eq (s : State) (h : 0 < s.sp.val) :
    s.pop = some (s.stack[s.sp.val - 1]'(by omega), { s with sp := ⟨s.sp.val - 1, by omega⟩ }) := by
  simp [State.pop, h]

theorem pop_empty (s : State) (h : s.sp.val = 0) : s.pop = none := by
  simp [State.pop, h]

/-! ### Framebuffer cells -/

/-- A cell after one cell is toggled. -/
theorem at_toggle (d : Display) (r c r' c' : Nat) (hr : r < 32) (hc' : c' < 64) :
    (d.toggle r c).at r' c' = (d.at r' c' ^^ decide (r' = r ∧ c' = c)) := by
  unfold Display.at Display.toggle
  split
  · rename_i h
    simp only [Vector.getElem_set]
    by_cases hrr : r = r'
    · subst hrr
      simp [hc', eq_comm]
    · simp [hrr, Ne.symm hrr]
  · rename_i h
    have : r' ≠ r := by omega
    simp [this]

theorem at_clear (r c : Nat) : Display.clear.at r c = false := by
  unfold Display.at Display.clear
  split <;> simp

/-- `disp[r*64 + c]` is the cell at row r and column c (R30). -/
theorem cell_at (d : Display) (r c : Nat) (hc : c < 64) : d.cell (r * 64 + c) = d.at r c := by
  have h1 : (r * 64 + c) / 64 = r := by omega
  have h2 : (r * 64 + c) % 64 = c := by omega
  rw [Display.cell, h1, h2]

end Sys2Proof.Machine
end

