-- ==== Sys2Proof/Laws/PerInstr.lean ====
section
/-! SUPPORT. The statements made per instruction: for each constructor, decoding its word gives it back. -/

namespace Sys2Proof.Laws

/-- Decoding the word of a well-formed instruction gives the instruction (R74, R81). -/
def RoundTrip.Statement (i : Instr) : Prop := i.wf = true → decodeWord (encode i) = i

theorem RoundTrip.cls (pad : Nibble) : RoundTrip.Statement (.cls pad) := by
  intro _
  show decodeWord (wordXNN _ _ _) = _
  rw [decodeWord_eq, family_wordXNN, fieldX_wordXNN, fieldNN_wordXNN]
  rfl

theorem RoundTrip.ret (pad : Nibble) : RoundTrip.Statement (.ret pad) := by
  intro _
  show decodeWord (wordXNN _ _ _) = _
  rw [decodeWord_eq, family_wordXNN, fieldX_wordXNN, fieldNN_wordXNN]
  rfl

theorem RoundTrip.sys (nnn : Addr12) : RoundTrip.Statement (.sys nnn) := by
  intro h
  have hn : ∀ b ∈ definedZero, nnn.setWidth 8 ≠ b := fun b hb e => by simp [Instr.wf, e, hb] at h
  show decodeWord (wordNNN _ _) = _
  rw [decodeWord_eq, family_wordNNN, fieldNNN_wordNNN, fieldNN_wordNNN]
  exact (if_neg (hn 0xE0 (by decide))).trans (if_neg (hn 0xEE (by decide)))

theorem RoundTrip.jp (nnn : Addr12) : RoundTrip.Statement (.jp nnn) := by
  intro _
  show decodeWord (wordNNN _ _) = _
  rw [decodeWord_eq, family_wordNNN, fieldNNN_wordNNN]
  rfl

theorem RoundTrip.call (nnn : Addr12) : RoundTrip.Statement (.call nnn) := by
  intro _
  show decodeWord (wordNNN _ _) = _
  rw [decodeWord_eq, family_wordNNN, fieldNNN_wordNNN]
  rfl

theorem RoundTrip.seImm (x : RegIdx) (nn : Byte) : RoundTrip.Statement (.seImm x nn) := by
  intro _
  show decodeWord (wordXNN _ _ _) = _
  rw [decodeWord_eq, family_wordXNN, fieldX_wordXNN, fieldNN_wordXNN]
  rfl

theorem RoundTrip.sneImm (x : RegIdx) (nn : Byte) : RoundTrip.Statement (.sneImm x nn) := by
  intro _
  show decodeWord (wordXNN _ _ _) = _
  rw [decodeWord_eq, family_wordXNN, fieldX_wordXNN, fieldNN_wordXNN]
  rfl

theorem RoundTrip.seReg (x : RegIdx) (y : RegIdx) (pad : Nibble) : RoundTrip.Statement (.seReg x y pad) := by
  intro _
  show decodeWord (wordXYN _ _ _ _) = _
  rw [decodeWord_eq, family_wordXYN, fieldX_wordXYN, fieldY_wordXYN, fieldN_wordXYN]
  rfl

theorem RoundTrip.ldImm (x : RegIdx) (nn : Byte) : RoundTrip.Statement (.ldImm x nn) := by
  intro _
  show decodeWord (wordXNN _ _ _) = _
  rw [decodeWord_eq, family_wordXNN, fieldX_wordXNN, fieldNN_wordXNN]
  rfl

theorem RoundTrip.addImm (x : RegIdx) (nn : Byte) : RoundTrip.Statement (.addImm x nn) := by
  intro _
  show decodeWord (wordXNN _ _ _) = _
  rw [decodeWord_eq, family_wordXNN, fieldX_wordXNN, fieldNN_wordXNN]
  rfl

theorem RoundTrip.ldReg (x : RegIdx) (y : RegIdx) : RoundTrip.Statement (.ldReg x y) := by
  intro _
  show decodeWord (wordXYN _ _ _ _) = _
  rw [decodeWord_eq, family_wordXYN, fieldX_wordXYN, fieldY_wordXYN, fieldN_wordXYN]
  rfl

theorem RoundTrip.orReg (x : RegIdx) (y : RegIdx) : RoundTrip.Statement (.orReg x y) := by
  intro _
  show decodeWord (wordXYN _ _ _ _) = _
  rw [decodeWord_eq, family_wordXYN, fieldX_wordXYN, fieldY_wordXYN, fieldN_wordXYN]
  rfl

theorem RoundTrip.andReg (x : RegIdx) (y : RegIdx) : RoundTrip.Statement (.andReg x y) := by
  intro _
  show decodeWord (wordXYN _ _ _ _) = _
  rw [decodeWord_eq, family_wordXYN, fieldX_wordXYN, fieldY_wordXYN, fieldN_wordXYN]
  rfl

theorem RoundTrip.xorReg (x : RegIdx) (y : RegIdx) : RoundTrip.Statement (.xorReg x y) := by
  intro _
  show decodeWord (wordXYN _ _ _ _) = _
  rw [decodeWord_eq, family_wordXYN, fieldX_wordXYN, fieldY_wordXYN, fieldN_wordXYN]
  rfl

theorem RoundTrip.addReg (x : RegIdx) (y : RegIdx) : RoundTrip.Statement (.addReg x y) := by
  intro _
  show decodeWord (wordXYN _ _ _ _) = _
  rw [decodeWord_eq, family_wordXYN, fieldX_wordXYN, fieldY_wordXYN, fieldN_wordXYN]
  rfl

theorem RoundTrip.subReg (x : RegIdx) (y : RegIdx) : RoundTrip.Statement (.subReg x y) := by
  intro _
  show decodeWord (wordXYN _ _ _ _) = _
  rw [decodeWord_eq, family_wordXYN, fieldX_wordXYN, fieldY_wordXYN, fieldN_wordXYN]
  rfl

theorem RoundTrip.shr (x : RegIdx) (y : RegIdx) : RoundTrip.Statement (.shr x y) := by
  intro _
  show decodeWord (wordXYN _ _ _ _) = _
  rw [decodeWord_eq, family_wordXYN, fieldX_wordXYN, fieldY_wordXYN, fieldN_wordXYN]
  rfl

theorem RoundTrip.subnReg (x : RegIdx) (y : RegIdx) : RoundTrip.Statement (.subnReg x y) := by
  intro _
  show decodeWord (wordXYN _ _ _ _) = _
  rw [decodeWord_eq, family_wordXYN, fieldX_wordXYN, fieldY_wordXYN, fieldN_wordXYN]
  rfl

theorem RoundTrip.shl (x : RegIdx) (y : RegIdx) : RoundTrip.Statement (.shl x y) := by
  intro _
  show decodeWord (wordXYN _ _ _ _) = _
  rw [decodeWord_eq, family_wordXYN, fieldX_wordXYN, fieldY_wordXYN, fieldN_wordXYN]
  rfl

theorem RoundTrip.undef8XY8 (x : RegIdx) (y : RegIdx) : RoundTrip.Statement (.undef8XY8 x y) := by
  intro _
  show decodeWord (wordXYN _ _ _ _) = _
  rw [decodeWord_eq, family_wordXYN, fieldX_wordXYN, fieldY_wordXYN, fieldN_wordXYN]
  rfl

theorem RoundTrip.undef8XY9 (x : RegIdx) (y : RegIdx) : RoundTrip.Statement (.undef8XY9 x y) := by
  intro _
  show decodeWord (wordXYN _ _ _ _) = _
  rw [decodeWord_eq, family_wordXYN, fieldX_wordXYN, fieldY_wordXYN, fieldN_wordXYN]
  rfl

theorem RoundTrip.undef8XYA (x : RegIdx) (y : RegIdx) : RoundTrip.Statement (.undef8XYA x y) := by
  intro _
  show decodeWord (wordXYN _ _ _ _) = _
  rw [decodeWord_eq, family_wordXYN, fieldX_wordXYN, fieldY_wordXYN, fieldN_wordXYN]
  rfl

theorem RoundTrip.undef8XYB (x : RegIdx) (y : RegIdx) : RoundTrip.Statement (.undef8XYB x y) := by
  intro _
  show decodeWord (wordXYN _ _ _ _) = _
  rw [decodeWord_eq, family_wordXYN, fieldX_wordXYN, fieldY_wordXYN, fieldN_wordXYN]
  rfl

theorem RoundTrip.undef8XYC (x : RegIdx) (y : RegIdx) : RoundTrip.Statement (.undef8XYC x y) := by
  intro _
  show decodeWord (wordXYN _ _ _ _) = _
  rw [decodeWord_eq, family_wordXYN, fieldX_wordXYN, fieldY_wordXYN, fieldN_wordXYN]
  rfl

theorem RoundTrip.undef8XYD (x : RegIdx) (y : RegIdx) : RoundTrip.Statement (.undef8XYD x y) := by
  intro _
  show decodeWord (wordXYN _ _ _ _) = _
  rw [decodeWord_eq, family_wordXYN, fieldX_wordXYN, fieldY_wordXYN, fieldN_wordXYN]
  rfl

theorem RoundTrip.undef8XYF (x : RegIdx) (y : RegIdx) : RoundTrip.Statement (.undef8XYF x y) := by
  intro _
  show decodeWord (wordXYN _ _ _ _) = _
  rw [decodeWord_eq, family_wordXYN, fieldX_wordXYN, fieldY_wordXYN, fieldN_wordXYN]
  rfl

theorem RoundTrip.sneReg (x : RegIdx) (y : RegIdx) (pad : Nibble) : RoundTrip.Statement (.sneReg x y pad) := by
  intro _
  show decodeWord (wordXYN _ _ _ _) = _
  rw [decodeWord_eq, family_wordXYN, fieldX_wordXYN, fieldY_wordXYN, fieldN_wordXYN]
  rfl

theorem RoundTrip.ldI (nnn : Addr12) : RoundTrip.Statement (.ldI nnn) := by
  intro _
  show decodeWord (wordNNN _ _) = _
  rw [decodeWord_eq, family_wordNNN, fieldNNN_wordNNN]
  rfl

theorem RoundTrip.jpV0 (nnn : Addr12) : RoundTrip.Statement (.jpV0 nnn) := by
  intro _
  show decodeWord (wordNNN _ _) = _
  rw [decodeWord_eq, family_wordNNN, fieldNNN_wordNNN]
  rfl

theorem RoundTrip.rnd (x : RegIdx) (nn : Byte) : RoundTrip.Statement (.rnd x nn) := by
  intro _
  show decodeWord (wordXNN _ _ _) = _
  rw [decodeWord_eq, family_wordXNN, fieldX_wordXNN, fieldNN_wordXNN]
  rfl

theorem RoundTrip.drw (x : RegIdx) (y : RegIdx) (n : Nibble) : RoundTrip.Statement (.drw x y n) := by
  intro _
  show decodeWord (wordXYN _ _ _ _) = _
  rw [decodeWord_eq, family_wordXYN, fieldX_wordXYN, fieldY_wordXYN, fieldN_wordXYN]
  rfl

theorem RoundTrip.skp (x : RegIdx) : RoundTrip.Statement (.skp x) := by
  intro _
  show decodeWord (wordXNN _ _ _) = _
  rw [decodeWord_eq, family_wordXNN, fieldX_wordXNN, fieldNN_wordXNN]
  rfl

theorem RoundTrip.sknp (x : RegIdx) : RoundTrip.Statement (.sknp x) := by
  intro _
  show decodeWord (wordXNN _ _ _) = _
  rw [decodeWord_eq, family_wordXNN, fieldX_wordXNN, fieldNN_wordXNN]
  rfl

theorem RoundTrip.undefE (x : RegIdx) (nn : Byte) : RoundTrip.Statement (.undefE x nn) := by
  intro h
  have hn : ∀ b ∈ definedE, nn ≠ b := fun b hb e => by simp [Instr.wf, e, hb] at h
  show decodeWord (wordXNN _ _ _) = _
  rw [decodeWord_eq, family_wordXNN, fieldX_wordXNN, fieldNN_wordXNN]
  exact decodeFamilyE_undef _ _ hn

theorem RoundTrip.ldVxDT (x : RegIdx) : RoundTrip.Statement (.ldVxDT x) := by
  intro _
  show decodeWord (wordXNN _ _ _) = _
  rw [decodeWord_eq, family_wordXNN, fieldX_wordXNN, fieldNN_wordXNN]
  rfl

theorem RoundTrip.ldVxK (x : RegIdx) : RoundTrip.Statement (.ldVxK x) := by
  intro _
  show decodeWord (wordXNN _ _ _) = _
  rw [decodeWord_eq, family_wordXNN, fieldX_wordXNN, fieldNN_wordXNN]
  rfl

theorem RoundTrip.ldDTVx (x : RegIdx) : RoundTrip.Statement (.ldDTVx x) := by
  intro _
  show decodeWord (wordXNN _ _ _) = _
  rw [decodeWord_eq, family_wordXNN, fieldX_wordXNN, fieldNN_wordXNN]
  rfl

theorem RoundTrip.ldSTVx (x : RegIdx) : RoundTrip.Statement (.ldSTVx x) := by
  intro _
  show decodeWord (wordXNN _ _ _) = _
  rw [decodeWord_eq, family_wordXNN, fieldX_wordXNN, fieldNN_wordXNN]
  rfl

theorem RoundTrip.addI (x : RegIdx) : RoundTrip.Statement (.addI x) := by
  intro _
  show decodeWord (wordXNN _ _ _) = _
  rw [decodeWord_eq, family_wordXNN, fieldX_wordXNN, fieldNN_wordXNN]
  rfl

theorem RoundTrip.ldF (x : RegIdx) : RoundTrip.Statement (.ldF x) := by
  intro _
  show decodeWord (wordXNN _ _ _) = _
  rw [decodeWord_eq, family_wordXNN, fieldX_wordXNN, fieldNN_wordXNN]
  rfl

theorem RoundTrip.ldB (x : RegIdx) : RoundTrip.Statement (.ldB x) := by
  intro _
  show decodeWord (wordXNN _ _ _) = _
  rw [decodeWord_eq, family_wordXNN, fieldX_wordXNN, fieldNN_wordXNN]
  rfl

theorem RoundTrip.store (x : RegIdx) : RoundTrip.Statement (.store x) := by
  intro _
  show decodeWord (wordXNN _ _ _) = _
  rw [decodeWord_eq, family_wordXNN, fieldX_wordXNN, fieldNN_wordXNN]
  rfl

theorem RoundTrip.load (x : RegIdx) : RoundTrip.Statement (.load x) := by
  intro _
  show decodeWord (wordXNN _ _ _) = _
  rw [decodeWord_eq, family_wordXNN, fieldX_wordXNN, fieldNN_wordXNN]
  rfl

theorem RoundTrip.undefF (x : RegIdx) (nn : Byte) : RoundTrip.Statement (.undefF x nn) := by
  intro h
  have hn : ∀ b ∈ definedF, nn ≠ b := fun b hb e => by simp [Instr.wf, e, hb] at h
  show decodeWord (wordXNN _ _ _) = _
  rw [decodeWord_eq, family_wordXNN, fieldX_wordXNN, fieldNN_wordXNN]
  exact decodeFamilyF_undef _ _ hn

end Sys2Proof.Laws
end

