-- ==== Sys2Proof/Laws/Sequencer.lean ====
section
/-! SUPPORT. What the block's events and the sequencer's operations can do: tick and presentation, key updates, signals,
and a poll without a reset. -/

namespace Sys2Proof.Machine

/-- A tick writes at most the timers and `tone`. -/
theorem tick_frame (s : State) : tick s = { s with DT := (tick s).DT, ST := (tick s).ST, tone := (tick s).tone } := by
  unfold tick
  split <;> rfl

/-- Presentation leaves `dirty` clear and everything else as it was. -/
theorem present_eq (s : State) : present s = { s with dirty := false } := by
  unfold present
  split
  · rfl
  · rename_i h
    simp only [Bool.not_eq_true] at h
    rw [← h]

@[simp] theorem setKey_keyDown (s : State) (u : KeyIdx × Bool) (k : KeyIdx) :
    (setKey s u).keyDown k = if k = u.1 then u.2 else s.keyDown k := by
  simp only [State.keyDown, setKey, Vector.getElem_set, Fin.ext_iff, eq_comm]

/-- Key updates write the keypad only. -/
theorem setKeys_frame (keys : List (KeyIdx × Bool)) (s : State) :
    keys.foldl setKey s = { s with key := (keys.foldl setKey s).key } := by
  induction keys generalizing s with
  | nil => rfl
  | cons u keys ih => rw [List.foldl_cons, ih]; rfl

/-- A signal other than a reset writes `run_state` only. -/
theorem handleSignal_frame (s : State) (g : Signal) (h : g ≠ .reset) :
    handleSignal s g = { s with runState := (handleSignal s g).runState } := by
  unfold handleSignal
  split <;> first | rfl | exact absurd rfl h

/-- Signals without a reset write `run_state` only. -/
theorem handleSignals_frame (gs : List Signal) (s : State) (h : Signal.reset ∉ gs) :
    handleSignals s gs = { s with runState := (handleSignals s gs).runState } := by
  induction gs generalizing s with
  | nil => rfl
  | cons g gs ih =>
    rw [List.mem_cons, not_or] at h
    rw [handleSignals, ih _ h.2, handleSignal_frame s g (Ne.symm h.1)]

/-- Signals raised one after the other. -/
theorem handleSignals_append (s : State) (a b : List Signal) :
    handleSignals s (a ++ b) = handleSignals (handleSignals s a) b := by
  induction a generalizing s with
  | nil => rfl
  | cons g a ih => exact ih _

/-- A poll without a reset writes the keypad and `run_state` only. -/
theorem applyPoll_frame (s : State) (p : Poll) (h : Signal.reset ∉ p.signals) :
    applyPoll s p = { s with key := (applyPoll s p).key, runState := (applyPoll s p).runState } := by
  rw [applyPoll, handleSignals_frame _ _ h, setKeys_frame]

/-- A signal, a reset too, keeps the parameters. -/
theorem handleSignal_params (s : State) (g : Signal) : (handleSignal s g).params = s.params := by
  unfold handleSignal
  split <;> rfl

/-- A poll keeps the parameters. -/
theorem applyPoll_params (s : State) (p : Poll) : (applyPoll s p).params = s.params := by
  have h : ∀ (gs : List Signal) (s : State), (handleSignals s gs).params = s.params := by
    intro gs
    induction gs with
    | nil => exact fun _ => rfl
    | cons g gs ih => exact fun s => (ih _).trans (handleSignal_params s g)
  rw [applyPoll, h, setKeys_frame]

end Sys2Proof.Machine
end

