-- ==== Sys2Proof/Laws/Sprite.lean ====
section
/-! SUPPORT. The sprite engine cell by cell: what the loops of R201 do to each cell and to the collision flag. -/

namespace Sys2Proof.Machine

/-- `n - 1, ..., 1, 0`: the last `n` bit numbers of a sprite row, in the order they are drawn. -/
def bitsDown : Nat → List Nat
  | 0 => []
  | n + 1 => n :: bitsDown n

/-- The last `n` bits of a sprite row have a set bit for column `c`. -/
def rowBit (ox n : Nat) (b : Byte) (c : Nat) : Bool :=
  decide (ox + 8 ≤ c + n ∧ ox ≤ c ∧ c < ox + 8) && b.getLsbD (7 - (c - ox))

/-- No bit is left for the columns before the next one. -/
theorem rowBit_left (ox n c : Nat) (b : Byte) (hc : c + n < ox + 8) : rowBit ox n b c = false := by
  have h : ¬ (ox + 8 ≤ c + n ∧ ox ≤ c ∧ c < ox + 8) := by omega
  simp [rowBit, h]

/-- No bits, no columns. -/
theorem rowBit_zero (ox c : Nat) (b : Byte) : rowBit ox 0 b c = false := by
  have h : ¬ (ox + 8 ≤ c + 0 ∧ ox ≤ c ∧ c < ox + 8) := by omega
  rw [rowBit, decide_eq_false h, Bool.false_and]

/-- The column of the next bit. -/
theorem rowBit_next (ox n : Nat) (b : Byte) (hn : n < 8) : rowBit ox (n + 1) b (ox + (7 - n)) = b.getLsbD n := by
  have h1 : 7 - (ox + (7 - n) - ox) = n := by omega
  have h2 : ox + 8 ≤ ox + (7 - n) + (n + 1) ∧ ox ≤ ox + (7 - n) ∧ ox + (7 - n) < ox + 8 := by omega
  rw [rowBit, h1, decide_eq_true h2, Bool.true_and]

/-- The columns after the next bit's. -/
theorem rowBit_rest (ox n c : Nat) (b : Byte) (hn : n < 8) (hc : c ≠ ox + (7 - n)) :
    rowBit ox (n + 1) b c = rowBit ox n b c := by
  have h : (ox + 8 ≤ c + (n + 1) ∧ ox ≤ c ∧ c < ox + 8) ↔ (ox + 8 ≤ c + n ∧ ox ≤ c ∧ c < ox + 8) := by omega
  rw [rowBit, rowBit, decide_eq_decide.2 h]

/-- What drawing the last `n` bits of a sprite row does to each cell. -/
theorem drawBits_at (ox ty : Nat) (b : Byte) (hty : ty < 32) (n : Nat) (hn : n ≤ 8) (d : Display) (col : Bool)
    (r c : Nat) (hc : c < 64) :
    (drawBits ox ty b (bitsDown n) (d, col)).1.at r c = (d.at r c ^^ (decide (r = ty) && rowBit ox n b c)) := by
  induction n generalizing d col with
  | zero => simp [rowBit_zero, bitsDown, drawBits]
  | succ n ih =>
    rw [bitsDown, drawBits]
    by_cases hx : 63 < ox + (7 - n)
    · rw [if_pos hx, rowBit_left _ _ _ _ (by omega)]; simp
    · rw [if_neg hx]
      by_cases hcn : c = ox + (7 - n)
      · subst hcn
        rw [rowBit_next _ _ _ (by omega)]
        split
        · rename_i hb
          rw [ih (by omega), at_toggle _ _ _ _ _ hty hc, rowBit_left _ _ _ _ (by omega)]
          simp [hb]
        · rename_i hb
          rw [ih (by omega), rowBit_left _ _ _ _ (by omega)]
          simp [hb]
      · rw [rowBit_rest _ _ _ _ (by omega) hcn]
        split
        · rw [ih (by omega), at_toggle _ _ _ _ _ hty hc]
          simp [hcn]
        · rw [ih (by omega)]

/-- The collision flag after the last `n` bits of a sprite row: a set bit met a lit cell. -/
theorem drawBits_collision (ox ty : Nat) (b : Byte) (hty : ty < 32) (n : Nat) (hn : n ≤ 8) (d : Display) (col : Bool) :
    (drawBits ox ty b (bitsDown n) (d, col)).2 = true ↔
      col = true ∨ ∃ c, c < 64 ∧ rowBit ox n b c = true ∧ d.at ty c = true := by
  induction n generalizing d col with
  | zero => simp [rowBit_zero, bitsDown, drawBits]
  | succ n ih =>
    rw [bitsDown, drawBits]
    have hleft : ∀ c, rowBit ox n b c = true → c ≠ ox + (7 - n) := by
      intro c h e
      rw [rowBit_left _ _ _ _ (by omega)] at h
      exact absurd h (by simp)
    by_cases hx : 63 < ox + (7 - n)
    · rw [if_pos hx]
      refine ⟨.inl, fun h => h.elim id fun ⟨c, h1, h2, _⟩ => ?_⟩
      rw [rowBit_left _ _ _ _ (by omega)] at h2
      exact absurd h2 (by simp)
    · rw [if_neg hx]
      split
      · rename_i hb
        rw [ih (by omega), Bool.or_eq_true, or_assoc]
        refine or_congr Iff.rfl ⟨fun h => ?_, fun ⟨c, h1, h2, h3⟩ => ?_⟩
        · rcases h with h | ⟨c, h1, h2, h3⟩
          · exact ⟨_, by omega, by rw [rowBit_next _ _ _ (by omega), hb], h⟩
          · have hne := hleft c h2
            rw [at_toggle _ _ _ _ _ hty h1] at h3
            exact ⟨c, h1, by rw [rowBit_rest _ _ _ _ (by omega) hne, h2], by simpa [hne] using h3⟩
        · by_cases hne : c = ox + (7 - n)
          · exact .inl (hne ▸ h3)
          · rw [rowBit_rest _ _ _ _ (by omega) hne] at h2
            exact .inr ⟨c, h1, h2, by rw [at_toggle _ _ _ _ _ hty h1]; simpa [hne] using h3⟩
      · rename_i hb
        rw [ih (by omega)]
        refine or_congr Iff.rfl ⟨fun ⟨c, h1, h2, h3⟩ => ?_, fun ⟨c, h1, h2, h3⟩ => ?_⟩
        · exact ⟨c, h1, by rw [rowBit_rest _ _ _ _ (by omega) (hleft c h2), h2], h3⟩
        · by_cases hne : c = ox + (7 - n)
          · subst hne
            rw [rowBit_next _ _ _ (by omega)] at h2
            exact absurd h2 hb
          · rw [rowBit_rest _ _ _ _ (by omega) hne] at h2
            exact ⟨c, h1, h2, h3⟩

/-- A whole sprite row has a set bit for column `c` exactly where the sprite has one in that row. -/
theorem rowBit_eight (ox oy base n : Nat) (m : Memory) (r c : Nat) (h : oy ≤ r ∧ r < oy + n) :
    rowBit ox 8 (m.read (base + (r - oy))) c = spriteBit ox oy base n m r c := by
  have h1 : (ox + 8 ≤ c + 8 ∧ ox ≤ c ∧ c < ox + 8) ↔ (oy ≤ r ∧ r < oy + n ∧ ox ≤ c ∧ c < ox + 8) := by omega
  rw [rowBit, spriteBit, decide_eq_decide.2 h1]

/-- Outside the rows of a sprite no cell has a set bit. -/
theorem spriteBit_outside (ox oy base n : Nat) (m : Memory) (r c : Nat) (h : ¬ (oy ≤ r ∧ r < oy + n)) :
    spriteBit ox oy base n m r c = false := by
  have h1 : ¬ (oy ≤ r ∧ r < oy + n ∧ ox ≤ c ∧ c < ox + 8) := by omega
  rw [spriteBit, decide_eq_false h1, Bool.false_and]

/-- Sprite rows `k` to `k + j - 1`: what they do to each cell. -/
theorem drawRows_at (ox oy base : Nat) (m : Memory) (j : Nat) (k : Nat) (d : Display) (col : Bool) (r c : Nat) (hr : r < 32)
    (hc : c < 64) :
    (drawRows ox oy base m (List.range' k j) (d, col)).1.at r c =
      (d.at r c ^^ (decide (oy + k ≤ r) && spriteBit ox oy base (k + j) m r c)) := by
  induction j generalizing k d col with
  | zero =>
    by_cases h : oy + k ≤ r
    · rw [spriteBit_outside _ _ _ _ _ _ _ (by omega)]; simp [drawRows]
    · simp [drawRows, h]
  | succ j ih =>
    rw [List.range'_succ, drawRows]
    by_cases hx : 31 < oy + k
    · rw [if_pos hx, decide_eq_false (by omega)]; simp
    · rw [if_neg hx]
      have hb := drawBits_at ox (oy + k) (m.read (base + k)) (by omega) 8 (by omega) d col r c hc
      obtain ⟨d', col', hd⟩ : ∃ d' col', drawBits ox (oy + k) (m.read (base + k)) (bitsDown 8) (d, col) = (d', col') :=
        ⟨_, _, rfl⟩
      rw [hd] at hb
      rw [show ([7, 6, 5, 4, 3, 2, 1, 0] : List Nat) = bitsDown 8 from rfl, hd, ih, hb,
        show k + 1 + j = k + (j + 1) by omega]
      by_cases h : r = oy + k
      · have h1 := rowBit_eight ox oy base (k + (j + 1)) m r c (by omega)
        rw [show r - oy = k by omega] at h1
        rw [h1, decide_eq_true h, decide_eq_false (by omega), decide_eq_true (by omega)]
        simp
      · have h2 : decide (oy + (k + 1) ≤ r) = decide (oy + k ≤ r) := decide_eq_decide.2 (by omega)
        rw [decide_eq_false h, h2]
        simp

/-- Sprite rows `k` to `k + j - 1`: the collision flag. -/
theorem drawRows_collision (ox oy base : Nat) (m : Memory) (j : Nat) (k : Nat) (d : Display) (col : Bool) :
    (drawRows ox oy base m (List.range' k j) (d, col)).2 = true ↔
      col = true ∨ ∃ r c, r < 32 ∧ c < 64 ∧ oy + k ≤ r ∧ spriteBit ox oy base (k + j) m r c = true ∧ d.at r c = true := by
  induction j generalizing k d col with
  | zero =>
    simp only [List.range'_zero, drawRows]
    refine ⟨.inl, fun h => h.elim id fun ⟨r, c, _, _, h1, h2, _⟩ => ?_⟩
    rw [spriteBit_outside _ _ _ _ _ _ _ (by omega)] at h2
    exact absurd h2 (by simp)
  | succ j ih =>
    rw [List.range'_succ, drawRows]
    by_cases hx : 31 < oy + k
    · rw [if_pos hx]
      exact ⟨.inl, fun h => h.elim id fun ⟨r, c, _, _, h1, _, _⟩ => by omega⟩
    · rw [if_neg hx]
      have hb := fun r c => drawBits_at ox (oy + k) (m.read (base + k)) (by omega) 8 (by omega) d col r c
      have hcol := drawBits_collision ox (oy + k) (m.read (base + k)) (by omega) 8 (by omega) d col
      have hrow := fun c => rowBit_eight ox oy base (k + (j + 1)) m (oy + k) c (by omega)
      rw [show oy + k - oy = k by omega] at hrow
      obtain ⟨d', col', hd⟩ : ∃ d' col', drawBits ox (oy + k) (m.read (base + k)) (bitsDown 8) (d, col) = (d', col') :=
        ⟨_, _, rfl⟩
      rw [hd] at hcol
      simp only [hd] at hb
      rw [show ([7, 6, 5, 4, 3, 2, 1, 0] : List Nat) = bitsDown 8 from rfl, hd, ih, hcol, or_assoc,
        show k + 1 + j = k + (j + 1) by omega]
      refine or_congr Iff.rfl ⟨fun h => ?_, fun ⟨r, c, h1, h2, h3, h4, h5⟩ => ?_⟩
      · rcases h with ⟨c, h1, h2, h3⟩ | ⟨r, c, h1, h2, h3, h4, h5⟩
        · exact ⟨oy + k, c, by omega, h1, le_refl _, by rw [← hrow, h2], h3⟩
        · rw [hb r c h2, decide_eq_false (by omega)] at h5
          exact ⟨r, c, h1, h2, by omega, h4, by simpa using h5⟩
      · by_cases h : r = oy + k
        · subst h
          exact .inl ⟨c, h2, by rw [hrow, h4], h5⟩
        · exact .inr ⟨r, c, h1, h2, by omega, h4, by rw [hb r c h2, decide_eq_false h]; simpa using h5⟩

/-- Every cell after a sprite is drawn: toggled where the sprite has a set bit, else as before (R201). -/
theorem drawSprite_at (ox oy base n : Nat) (m : Memory) (d : Display) (r c : Nat) (hr : r < 32) (hc : c < 64) :
    (drawSprite ox oy base n m d).1.at r c = (d.at r c ^^ spriteBit ox oy base n m r c) := by
  rw [drawSprite, List.range_eq_range', drawRows_at _ _ _ _ _ _ _ _ _ _ hr hc, Nat.zero_add]
  by_cases h : oy + 0 ≤ r
  · rw [decide_eq_true h, Bool.true_and]
  · rw [spriteBit_outside _ _ _ _ _ _ _ (by omega), Bool.and_false]

/-- The collision flag: a set sprite bit met a lit cell (R201). -/
theorem drawSprite_collision (ox oy base n : Nat) (m : Memory) (d : Display) :
    (drawSprite ox oy base n m d).2 = true ↔
      ∃ r c, r < 32 ∧ c < 64 ∧ spriteBit ox oy base n m r c = true ∧ d.at r c = true := by
  rw [drawSprite, List.range_eq_range', drawRows_collision, Nat.zero_add]
  constructor
  · rintro (h | ⟨r, c, h1, h2, _, h3, h4⟩)
    · exact absurd h (by simp)
    · exact ⟨r, c, h1, h2, h3, h4⟩
  · rintro ⟨r, c, h1, h2, h3, h4⟩
    refine .inr ⟨r, c, h1, h2, ?_, h3, h4⟩
    by_contra h
    rw [spriteBit_outside _ _ _ _ _ _ _ (by omega)] at h3
    exact absurd h3 (by simp)

end Sys2Proof.Machine
end

