-- ==== Sys2Proof/Tests/Slice0.lean ====
section
/-! SUPPORT. Tests of the model and the witnesses of the statements' hypotheses. Each expected result is taken from
spec/95_test_vectors.md (named T-... or E...), from an instruction rule's own example (named R...), or worked out by hand
from the rule named. -/

open Sys2Proof Sys2Proof.Machine Sys2Proof.Spec

namespace Sys2Proof.Tests

/-! ### Well-formedness: ill-formed terms are refused, each check by one -/

/-- SYS may not hold CLS's low byte (R76). -/
theorem test_wf_sys_cls : (Instr.sys 0x1E0).wf = false := by decide

/-- SYS may not hold RET's low byte (R76). -/
theorem test_wf_sys_ret : (Instr.sys 0x0EE).wf = false := by decide

/-- UNDEF of family 0xE may not hold a low byte of R78. -/
theorem test_wf_undefE : (Instr.undefE 3 0x9E).wf = false ∧ (Instr.undefE 3 0xA1).wf = false := by decide

/-- UNDEF of family 0xF may not hold a low byte of R79. -/
theorem test_wf_undefF : definedF.all (fun nn => !(Instr.undefF 3 nn).wf) = true := by decide

/-- The neighbours are well-formed (R76, R78, R79). -/
theorem test_wf_neighbours :
    (Instr.sys 0x0E1).wf = true ∧ (Instr.undefE 3 0x9F).wf = true ∧ (Instr.undefF 3 0x75).wf = true := by decide

/-! ### Decoding: a word written out bit by bit from the spec's encoding, for every constructor (R70, R81) -/

/-- Family 0x0: R76; the second word of each pair has x not 0 (T-DEC-3, T-DEC-4). -/
theorem test_decode_family_0 :
    decodeWord 0b0000000011100000 = .cls 0 ∧ decodeWord 0b0000000111100000 = .cls 1 ∧
    decodeWord 0b0000000011101110 = .ret 0 ∧ decodeWord 0b0000111111101110 = .ret 0xF ∧
    decodeWord 0b0000001101000101 = .sys 0x345 ∧ decodeWord 0b0000000011100001 = .sys 0x0E1 := by decide

/-- Families 0x1 to 0x4: x = 5, nn = 0xA3. -/
theorem test_decode_families_1_to_4 :
    decodeWord 0b0001101010111100 = .jp 0xABC ∧ decodeWord 0b0010010000000000 = .call 0x400 ∧
    decodeWord 0b0011010110100011 = .seImm 5 0xA3 ∧ decodeWord 0b0100010110100011 = .sneImm 5 0xA3 := by decide

/-- Families 0x5 to 0x7 and 0x9: x = 1, y = 2 (T-DEC-7, T-DEC-8 with n not 0). -/
theorem test_decode_families_5_to_9 :
    decodeWord 0b0101000100100000 = .seReg 1 2 0 ∧ decodeWord 0b0101000100100001 = .seReg 1 2 1 ∧
    decodeWord 0b0110101011111111 = .ldImm 0xA 0xFF ∧ decodeWord 0b0111111100000001 = .addImm 0xF 0x01 ∧
    decodeWord 0b1001000100100000 = .sneReg 1 2 0 ∧ decodeWord 0b1001000100101111 = .sneReg 1 2 0xF := by decide

/-- Family 0x8, the nine operations: x = 1, y = 2 (R77). -/
theorem test_decode_family_8 :
    decodeWord 0b1000000100100000 = .ldReg 1 2 ∧ decodeWord 0b1000000100100001 = .orReg 1 2 ∧
    decodeWord 0b1000000100100010 = .andReg 1 2 ∧ decodeWord 0b1000000100100011 = .xorReg 1 2 ∧
    decodeWord 0b1000000100100100 = .addReg 1 2 ∧ decodeWord 0b1000000100100101 = .subReg 1 2 ∧
    decodeWord 0b1000000100100110 = .shr 1 2 ∧ decodeWord 0b1000000100100111 = .subnReg 1 2 ∧
    decodeWord 0b1000000100101110 = .shl 1 2 := by decide

/-- Family 0x8, the seven UNDEF rows: x = 1, y = 2 (R77, R82). -/
theorem test_decode_family_8_undef :
    decodeWord 0b1000000100101000 = .undef8XY8 1 2 ∧ decodeWord 0b1000000100101001 = .undef8XY9 1 2 ∧
    decodeWord 0b1000000100101010 = .undef8XYA 1 2 ∧ decodeWord 0b1000000100101011 = .undef8XYB 1 2 ∧
    decodeWord 0b1000000100101100 = .undef8XYC 1 2 ∧ decodeWord 0b1000000100101101 = .undef8XYD 1 2 ∧
    decodeWord 0b1000000100101111 = .undef8XYF 1 2 := by decide

/-- Families 0xA to 0xE: x = 1, y = 2, n = 3 (R78, R80; E1 for 0xD123). -/
theorem test_decode_families_A_to_E :
    decodeWord 0b1010101111001101 = .ldI 0xBCD ∧ decodeWord 0b1011001100000000 = .jpV0 0x300 ∧
    decodeWord 0b1100001100001111 = .rnd 3 0x0F ∧ decodeWord 0b1101000100100011 = .drw 1 2 3 ∧
    decodeWord 0b1110010110011110 = .skp 5 ∧ decodeWord 0b1110010110100001 = .sknp 5 ∧
    decodeWord 0b1110000010011111 = .undefE 0 0x9F := by decide

/-- Family 0xF: x = 4 (R79; T-DEC-16 and T-DEC-17 for the UNDEF words). -/
theorem test_decode_family_F :
    decodeWord 0b1111010000000111 = .ldVxDT 4 ∧ decodeWord 0b1111010000001010 = .ldVxK 4 ∧
    decodeWord 0b1111010000010101 = .ldDTVx 4 ∧ decodeWord 0b1111010000011000 = .ldSTVx 4 ∧
    decodeWord 0b1111010000011110 = .addI 4 ∧ decodeWord 0b1111010000101001 = .ldF 4 ∧
    decodeWord 0b1111010000110011 = .ldB 4 ∧ decodeWord 0b1111010001010101 = .store 4 ∧
    decodeWord 0b1111010001100101 = .load 4 ∧ decodeWord 0b1111000001110101 = .undefF 0 0x75 ∧
    decodeWord 0b1111111111111111 = .undefF 15 0xFF := by decide

/-- The record of 0xD123 (E1). -/
theorem test_decode_record :
    decodeRecord 0xD123 = ⟨0xD123, 0xD, 0x1, 0x2, 0x3, 0x23, 0x123, .DRW⟩ := by decide

/-- The high byte comes first, what follows the two bytes is left, and one byte is no instruction (R54, R70). -/
theorem test_decode_bytes :
    decode [0x12, 0x34, 0x56] = .ok (.jp 0x234, [0x56]) ∧ decode [0x12] = .error .truncated ∧
    decodeTableWord 16 0x1234 = some (.jp 0x234) := by decide

/-! ### One step -/

/-- The reset state with some registers set. -/
def regs (l : List (RegIdx × Byte)) : State := l.foldl (fun s p => s.setReg p.1 p.2) State.reset

/-- The reset state with some registers set, I = `i` and bytes in memory from I up. -/
def regsMem (l : List (RegIdx × Byte)) (i : Word) (bytes : List Byte) : State :=
  { regs l with I := i, mem := Memory.writeBytes [] i.toNat bytes }

/-- The reset state with key 7 pressed and V5 = 7. -/
def key7 : State := setKey (regs [(5, 0x07)]) (7, true)

/-- The state with `n` entries on the stack: 0x200 + 2k at entry k. -/
def stacked (n : Fin 13) : State :=
  { State.reset with sp := n, stack := Vector.ofFn fun k => BitVec.ofNat 16 (0x200 + 2 * k.val) }

/-- The state with a recorded fault. -/
def faultedState : State :=
  { State.reset with DT := 5, dirty := true, fault := some ⟨.StackUnderflow, 0x200, 0x00EE, 0⟩ }

/-- The next state of an outcome. -/
def nextState : Host.Outcome State Fault Refusal → Option State
  | .next t => some t
  | .fault _ => none
  | .refused _ => none

/-- What a property of the state is after one step that runs the word `w` at pc. -/
def after {α : Type} (w : Nat) (s : State) (f : State → α) : Option α :=
  (nextState (step (s.withFetchWord 16 w))).map f

/-- T-DSP-1: every cell 0 and `dirty` set. -/
theorem test_cls : after 0x00E0 { State.reset with disp := Vector.replicate 32 0x81 } (fun t => (t.disp == Display.clear, t.dirty)) =
    some (true, true) := by decide

/-- T-CF-5, with the entries of `stacked`: sp = 1 and pc = stack[1]. -/
theorem test_ret : after 0x00EE (stacked 2) (fun t => (t.sp.val, t.pc, t.stack[1])) = some (1, 0x202, 0x202) := by decide

/-- T-CF-4. -/
theorem test_ret_underflow : after 0x00EE { State.reset with pc := 0x300 } (fun t => (t.pc, t.fault)) =
    some (0x300, some ⟨.StackUnderflow, 0x300, 0x00EE, 0⟩) := by decide

/-- T-CF-8. -/
theorem test_sys : after 0x0123 State.reset (·.pc) = some 0x123 := by decide

/-- T-CF-1. -/
theorem test_jp : after 0x1ABC State.reset (·.pc) = some 0xABC := by decide

/-- T-CF-2. -/
theorem test_call : after 0x2400 State.reset (fun t => (t.stack[0], t.sp.val, t.pc)) = some (0x202, 1, 0x400) := by decide

/-- T-CF-3. -/
theorem test_call_overflow : after 0x2400 (stacked 12) (fun t => (t.pc, t.sp.val, t.fault)) =
    some (0x200, 12, some ⟨.StackOverflow, 0x200, 0x2400, 12⟩) := by decide

/-- T-CF-11: not reduced modulo 4096. -/
theorem test_jpV0 : after 0xBFFF (regs [(0, 0xFF)]) (·.pc) = some 0x10FE := by decide

/-- T-CF-11, the next step. -/
theorem test_fetch_fault : nextState (blockStep { State.reset with pc := 0x10FE }) =
    some { State.reset with pc := 0x10FE, fault := some ⟨.FetchOutOfRange, 0x10FE, 0, 0x10FE⟩ } := by decide

/-- T-CF-10: the last fetchable address. -/
theorem test_fetch_last : after 0x6001 { State.reset with pc := 0xFFE } (fun t => (t.reg 0, t.pc, t.fault)) =
    some (0x01, 0x1000, none) := by decide

/-- T-CF-9: a fetch from an odd address, high byte first (R54). -/
theorem test_fetch_odd : State.fetchWord { State.reset with pc := 0x201, mem := Memory.writeBytes [] 0x200 [0x12, 0x00, 0xE0] } =
    0x00E0 := by decide

/-- T-SK-1 and T-SK-2. -/
theorem test_seImm : after 0x3342 (regs [(3, 0x42)]) (·.pc) = some 0x204 ∧ after 0x3342 (regs [(3, 0x41)]) (·.pc) = some 0x202 := by
  decide

/-- T-SK-3 and T-SK-4. -/
theorem test_sneImm : after 0x4342 (regs [(3, 0x41)]) (·.pc) = some 0x204 ∧ after 0x4342 (regs [(3, 0x42)]) (·.pc) = some 0x202 := by
  decide

/-- T-SK-5 and T-SK-6. -/
theorem test_seReg : after 0x5120 (regs [(1, 7), (2, 7)]) (·.pc) = some 0x204 ∧
    after 0x5121 (regs [(1, 7), (2, 8)]) (·.pc) = some 0x202 := by decide

/-- T-SK-8 and T-SK-9. -/
theorem test_sneReg : after 0x9440 (regs [(4, 9)]) (·.pc) = some 0x202 ∧
    after 0x9120 (regs [(1, 7), (2, 8)]) (·.pc) = some 0x204 := by decide

/-- T-SK-10 and T-SK-14. -/
theorem test_skp : after 0xE59E key7 (·.pc) = some 0x204 ∧
    after 0xE59E (regs [(5, 0x10)]) (fun t => (t.pc, t.fault)) =
      some (0x200, some ⟨.KeyIndexOutOfRange, 0x200, 0xE59E, 0x10⟩) := by decide

/-- T-SK-12 and T-SK-13. -/
theorem test_sknp : after 0xE5A1 (regs [(5, 0x07)]) (·.pc) = some 0x204 ∧ after 0xE5A1 key7 (·.pc) = some 0x202 := by decide

/-- T-ALU-1. -/
theorem test_ldImm : after 0x6AFF State.reset (·.reg 0xA) = some 0xFF := by decide

/-- T-ALU-2 and T-ALU-3. -/
theorem test_addImm : after 0x7001 (regs [(0, 0xFF), (15, 0x55)]) (fun t => (t.reg 0, t.reg 15)) = some (0x00, 0x55) ∧
    after 0x7F01 (regs [(15, 0x10)]) (·.reg 15) = some 0x11 := by decide

/-- T-ALU-4. -/
theorem test_ldReg : after 0x8010 (regs [(1, 0xAB), (15, 0x55)]) (fun t => (t.reg 0, t.reg 15)) = some (0xAB, 0x55) := by decide

/-- T-ALU-5. -/
theorem test_orReg : after 0x8011 (regs [(0, 0xF0), (1, 0x3C), (15, 0x55)]) (fun t => (t.reg 0, t.reg 15)) = some (0xFC, 0x55) := by
  decide

/-- T-ALU-5. -/
theorem test_andReg : after 0x8012 (regs [(0, 0xF0), (1, 0x3C), (15, 0x55)]) (fun t => (t.reg 0, t.reg 15)) = some (0x30, 0x55) := by
  decide

/-- T-ALU-5 and T-ALU-6. -/
theorem test_xorReg : after 0x8013 (regs [(0, 0xF0), (1, 0x3C), (15, 0x55)]) (fun t => (t.reg 0, t.reg 15)) = some (0xCC, 0x55) ∧
    after 0x8443 (regs [(4, 0x9A)]) (·.reg 4) = some 0x00 := by decide

/-- T-ALU-8b and T-ALU-7. -/
theorem test_addReg : after 0x8014 (regs [(0, 0xFF), (1, 0xFF)]) (fun t => (t.reg 0, t.reg 15)) = some (0xFE, 1) ∧
    after 0x8014 (regs [(0, 0x10), (1, 0x20), (15, 0x55)]) (fun t => (t.reg 0, t.reg 15)) = some (0x30, 0) := by decide

/-- T-ALU-11 and T-ALU-11b: x = 0xF, the flag is written last. -/
theorem test_addReg_VF : after 0x8F14 (regs [(15, 0xFF), (1, 0x01)]) (·.reg 15) = some 1 ∧
    after 0x8F14 (regs [(15, 0x01), (1, 0x01)]) (·.reg 15) = some 0 := by decide

/-- E4, the borrow case, and T-ALU-9, the strict comparison. -/
theorem test_subReg : after 0x8015 (regs [(0, 0x01), (1, 0x03)]) (fun t => (t.reg 0, t.reg 15)) = some (0xFE, 0) ∧
    after 0x8015 (regs [(0, 0x42), (1, 0x42), (15, 0x55)]) (fun t => (t.reg 0, t.reg 15)) = some (0x00, 0) := by decide

/-- T-ALU-10 and T-ALU-15: VF as first and as second operand. -/
theorem test_subReg_VF : after 0x8F15 (regs [(15, 0x05), (1, 0x03)]) (·.reg 15) = some 1 ∧
    after 0x80F5 (regs [(0, 0x10), (15, 0x01)]) (fun t => (t.reg 0, t.reg 15)) = some (0x0F, 1) := by decide

/-- T-ALU-12b and T-ALU-16: y is not used. -/
theorem test_shr : after 0x8006 (regs [(0, 0xFE)]) (fun t => (t.reg 0, t.reg 15)) = some (0x7F, 0) ∧
    after 0x8126 (regs [(1, 0x04), (2, 0xFF)]) (fun t => (t.reg 1, t.reg 15)) = some (0x02, 0) := by decide

/-- T-ALU-14b and T-ALU-14c. -/
theorem test_subnReg : after 0x8017 (regs [(0, 0x05), (1, 0x03)]) (fun t => (t.reg 0, t.reg 15)) = some (0xFE, 0) ∧
    after 0x8017 (regs [(0, 0x03), (1, 0x05)]) (fun t => (t.reg 0, t.reg 15)) = some (0x02, 1) := by decide

/-- T-ALU-13 and T-ALU-13b. -/
theorem test_shl : after 0x800E (regs [(0, 0x80)]) (fun t => (t.reg 0, t.reg 15)) = some (0x00, 1) ∧
    after 0x800E (regs [(0, 0x7F)]) (fun t => (t.reg 0, t.reg 15)) = some (0xFE, 0) := by decide

/-- T-ALU-20: whatever the draw, the byte masked by 0x00 is 0x00; one draw is used (R265). -/
theorem test_rnd : after 0xC000 (regs [(0, 0xAB)]) (fun t => (t.reg 0, t.randDraws)) = some (0x00, 1) := by
  have h : after 0xC000 (regs [(0, 0xAB)]) (fun t => (t.reg 0, t.randDraws)) = some (Config.rand 0 &&& 0x00, 1) := rfl
  rw [h]
  simp

/-- T-IM-1. -/
theorem test_ldI : after 0xAFFF State.reset (·.I) = some 0x0FFF := by decide

/-- T-IM-2 and T-IM-3. -/
theorem test_addI : after 0xF01E { regs [(0, 0x01), (15, 0x55)] with I := 0x0FFF } (fun t => (t.I, t.reg 15)) = some (0x1000, 0x55) ∧
    after 0xF01E { regs [(0, 0x02)] with I := 0xFFFF } (·.I) = some 0x0001 := by decide

/-- T-IM-4. -/
theorem test_ldF : after 0xF029 (regs [(0, 0x0F)]) (·.I) = some 0x004B ∧ after 0xF029 (regs [(0, 0xA5)]) (·.I) = some 0x0019 := by
  decide

/-- E7 and T-IM-6. -/
theorem test_ldB : after 0xF033 (regsMem [(0, 156)] 0x300 []) (fun t => (t.readByte 0x300, t.readByte 0x301, t.readByte 0x302)) =
      some (1, 5, 6) ∧
    after 0xF033 (regsMem [(0, 123)] 0xFFE [0x77, 0x88]) (fun t => (t.fault, t.readByte 0xFFE, t.readByte 0xFFF)) =
      some (some ⟨.DataOutOfRange, 0x200, 0xF033, 0x1000⟩, 0x77, 0x88) := by decide

/-- R185's example, I unchanged, and T-IM-12. -/
theorem test_store : after 0xF255 (regsMem [(0, 0x11), (1, 0x22), (2, 0x33), (3, 0x44)] 0x400 [])
      (fun t => (t.readByte 0x400, t.readByte 0x402, t.readByte 0x403, t.I)) = some (0x11, 0x33, 0x00, 0x400) ∧
    after 0xF055 { State.reset with I := 0x2000 } (·.fault) = some (some ⟨.DataOutOfRange, 0x200, 0xF055, 0x2000⟩) := by decide

/-- R186's example with V3 untouched, and T-IM-11. -/
theorem test_load : after 0xF265 (regsMem [(3, 0x99)] 0x400 [0x11, 0x22, 0x33, 0x44])
      (fun t => (t.reg 0, t.reg 1, t.reg 2, t.reg 3, t.I)) = some (0x11, 0x22, 0x33, 0x99, 0x400) ∧
    after 0xF065 { regs [(0, 0x55)] with I := 0x1000 } (fun t => (t.reg 0, t.fault)) =
      some (0x55, some ⟨.DataOutOfRange, 0x200, 0xF065, 0x1000⟩) := by decide

/-- T-DSP-3: clipped at column 63, and T-DSP-7: a collision. -/
theorem test_drw : after 0xD011 (regsMem [(0, 62)] 0x300 [0xFF])
      (fun t => (t.disp.cell 62, t.disp.cell 63, t.disp.cell 0, t.disp.cell 64, t.reg 15, t.dirty)) =
      some (true, true, false, false, 0, true) ∧
    after 0xD011 { regsMem [] 0x300 [0xC0] with disp := Display.clear.toggle 0 0 }
      (fun t => (t.disp.cell 0, t.disp.cell 1, t.reg 15)) = some (false, true, 1) := by decide

/-- T-DSP-8: the origin is read before VF is written, and T-DSP-10: a clipped row's address is checked. -/
theorem test_drw_corners : after 0xDF11 (regsMem [(15, 0x05)] 0x300 [0x80]) (fun t => (t.disp.cell 5, t.reg 15)) = some (true, 0) ∧
    after 0xD012 { regs [(1, 31)] with I := 0xFFF } (fun t => (t.dirty, t.fault)) =
      some (false, some ⟨.DataOutOfRange, 0x200, 0xD012, 0x1000⟩) := by decide

/-- T-TK-5. -/
theorem test_ldVxDT : after 0xF107 { State.reset with DT := 0x3C } (·.reg 1) = some 0x3C := by decide

/-- T-TK-6 and T-TK-8. -/
theorem test_ldVxK : after 0xF30A { State.reset with pc := 0x210 } (fun t => (t.pc, t.reg 3)) = some (0x210, 0) ∧
    after 0xFF0A (setKey State.reset (0xC, true)) (fun t => (t.pc, t.reg 15)) = some (0x202, 0x0C) := by decide

/-- R222's example. -/
theorem test_ldDTVx : after 0xF215 (regs [(2, 0x05)]) (·.DT) = some 0x05 := by decide

/-- T-TK-4. -/
theorem test_ldSTVx : after 0xF218 (regs [(2, 3)]) (fun t => (t.ST, t.tone)) = some (3, false) := by decide

/-- T-UD-1. -/
theorem test_undef8 : nextState (blockStep { regs [(0, 0x12), (15, 0x34)] with mem := [(0x200, 0x80), (0x201, 0x08)] }) =
    some { regs [(0, 0x12), (15, 0x34)] with mem := [(0x200, 0x80), (0x201, 0x08)], pc := 0x202 } := by decide

/-- T-UD-2 and T-UD-3. -/
theorem test_undefE_undefF : after 0xE000 { State.reset with pc := 0x300 } (fun t => (t.pc, t.dirty)) = some (0x302, false) ∧
    after 0xF000 { State.reset with pc := 0x400, I := 0x123 } (fun t => (t.pc, t.I)) = some (0x402, 0x123) := by decide

/-! ### Events and the sequencer -/

/-- T-TK-3. -/
theorem test_tick_tone :
    (let t := tick { State.reset with ST := 1 }; ((t.ST, t.tone), ((tick t).ST, (tick t).tone))) = ((0, true), (0, false)) := by decide

/-- The end of a slice: one tick, `dirty` acknowledged, the poll's key set, the next slice ahead (R271, E9). -/
theorem test_slice_end :
    nextState (step { State.reset with DT := 3, dirty := true, stepsLeft := 0, inbox := [⟨[(7, true)], []⟩] }) =
      some { State.reset with DT := 2, stepsLeft := 16, key := (Vector.replicate 16 false).set 7 true } := by decide

/-- A paused slice's poll: the last update of key 7 decides, key 9 is set, and the pause toggle leaves Running (R263, R270, R275). -/
theorem test_paused_poll :
    (nextState (step { State.reset with runState := .Paused, inbox := [⟨[(7, true), (9, true), (7, false)], [.pauseToggle]⟩] })).map
      (fun t => (t.keyDown 7, t.keyDown 9, t.runState, t.inbox)) = some (false, true, .Running, []) := by decide

/-- T-SQ-2, one slice. -/
theorem test_paused : nextState (step { State.reset with runState := .Paused, DT := 5 }) = some { State.reset with runState := .Paused, DT := 5 } := by
  decide

/-- T-SQ-3: a faulted block's timers are frozen, and the acknowledge still clears `dirty` (R244). -/
theorem test_faulted_slice : nextState (step { faultedState with stepsLeft := 0 }) =
    some { faultedState with stepsLeft := 16, dirty := false } := by decide

/-- T-SQ-4. -/
theorem test_quit_reset : handleSignal { State.reset with runState := .Quit, DT := 5 } .reset = { State.reset with runState := .Quit, DT := 5 } := by
  decide

/-- T-SQ-5, with the default parameters: all of R38. -/
theorem test_reset_signal : handleSignal { faultedState with V := Vector.replicate 16 0x77, I := 9, pc := 0x300, mem := [(0x300, 1)] } .reset =
    State.reset := by decide +kernel

/-- Signals in their order (R275): reset after a pause leaves Running, pause after a reset leaves Paused. -/
theorem test_signal_order : (handleSignals State.reset [.pauseToggle, .reset]).runState = .Running ∧
    (handleSignals State.reset [.reset, .pauseToggle]).runState = .Paused := by decide

/-- Reset places the ROM at 0x200 and the FONT at 0x000 (R280; glyph 0 of D21 is F0 90 90 90 F0). -/
theorem test_create : (let s := State.create { Params.default with rom := [0x12, 0x34] }; (s.readByte 0x200, s.readByte 0x201, s.readByte 0x202,
    s.readByte 0, s.readByte 1, s.pc)) = (0x12, 0x34, 0x00, 0xF0, 0x90, 0x200) := by decide +kernel

/-- Writing back what an unlisted address reads as takes the cell out, and cells stay in rising order (log entry 17). -/
theorem test_memory_canonical : Memory.writeBytes [] 0x300 [1, 0, 2] = [(0x300, 1), (0x302, 2)] ∧
    Memory.write [(0x300, 1), (0x302, 2)] 0x300 0 = [(0x302, 2)] ∧ Memory.write [] 0 0xF0 = [] ∧
    Memory.write [] 0x1000 5 = [] := by decide

/-! ### Witnesses: concrete states and operands that meet the statements' hypotheses, clause by clause -/

/-- A machine with the word `w` at pc. -/
def atWord (w : Nat) (s : State) : State := s.withFetchWord 16 w

/-- A machine whose next poll pauses it, with one step left. -/
def pollsPause : State := { State.reset with stepsLeft := 1, inbox := [⟨[(7, true)], [.pauseToggle]⟩] }

theorem witness_DecodeInvertsEncode : (Instr.sys 0xFE1).wf = true ∧ (Instr.undefF 15 0xFF).wf = true := by decide

/-- The last address that can be fetched from, with the last step of a slice. -/
theorem witness_StepRunsDecodedInstruction :
    let s : State := { State.reset with pc := 0xFFE, stepsLeft := 1, mem := [(0xFFE, 0x12), (0xFFF, 0x34)] }
    s.runState = .Running ∧ s.stepsLeft = 0 + 1 ∧ s.fault = none ∧ s.pc.toNat ≤ 0xFFE ∧
      decode [s.readByte s.pc.toNat, s.readByte (s.pc.toNat + 1)] = .ok (.jp 0x234, []) := by decide

theorem witness_TraceRecordsTheStep :
    let s : State := { State.reset with pc := 0xFFE }
    s.fault = none ∧ s.pc.toNat ≤ 0xFFE := by decide

theorem witness_FetchBeyondMemoryFaults :
    let s : State := { State.reset with pc := 0xFFF, stepsLeft := 1 }
    s.runState = .Running ∧ s.stepsLeft = 0 + 1 ∧ s.fault = none ∧ 0xFFE < s.pc.toNat := by decide

/-- Every row of the table, each at the first value that faults, and the last that does not. -/
theorem witness_ModelFaultTable :
    State.reset.fault = none ∧
    modelFault (.call 0x200) (stacked 12) = some (.StackOverflow, 12) ∧ modelFault (.call 0x200) (stacked 11) = none ∧
    modelFault (.ret 0) (stacked 0) = some (.StackUnderflow, 0) ∧ modelFault (.ret 0) (stacked 1) = none ∧
    modelFault (.skp 5) (regs [(5, 0x10)]) = some (.KeyIndexOutOfRange, 0x10) ∧ modelFault (.sknp 5) (regs [(5, 0x0F)]) = none ∧
    modelFault (.drw 0 0 2) (regsMem [] 0xFFF []) = some (.DataOutOfRange, 0x1000) ∧ modelFault (.drw 0 0 0) (regsMem [] 0xFFFF []) = none ∧
    modelFault (.ldB 0) (regsMem [] 0xFFE []) = some (.DataOutOfRange, 0x1000) ∧ modelFault (.ldB 0) (regsMem [] 0xFFD []) = none ∧
    modelFault (.store 0) (regsMem [] 0x2000 []) = some (.DataOutOfRange, 0x2000) ∧ modelFault (.load 15) (regsMem [] 0xFF0 []) = none := by
  decide

theorem witness_FaultsArePrecise : ∃ t, (atWord 0x00EE State.reset).fault = none ∧
    blockStep (atWord 0x00EE State.reset) = .next t ∧ t.fault ≠ none := ⟨_, rfl, rfl, by decide⟩

theorem witness_FaultedBlockIsFrozen : ∃ t, faultedState.fault = some ⟨.StackUnderflow, 0x200, 0x00EE, 0⟩ ∧
    step faultedState = .next t ∧ NoResetNext faultedState := ⟨_, rfl, rfl, by simp [NoResetNext, faultedState, State.reset]⟩

theorem witness_HiddenStateIsNotObservable : ∃ t,
    SameToPrograms (stacked 1) { stacked 1 with dirty := true, tone := true, ST := 9, stack := (stacked 1).stack.set 1 0xABC } ∧
    blockStep (stacked 1) = .next t := by
  refine ⟨_, ⟨rfl, rfl, rfl, rfl, fun k h hk => ?_, rfl, rfl, rfl, rfl, rfl, rfl, rfl⟩, rfl⟩
  have hk : k = 0 := by have : (stacked 1).sp.val = 1 := rfl; omega
  subst hk; rfl

/-- The bytes just below and just above the three stored, and any byte for an instruction that stores nothing. -/
theorem witness_OnlyStoresWriteMemory :
    (∃ t, exec (.ldB 0) (regsMem [] 0xFFD []) = .next t ∧ 0xFFC < (regsMem [] 0xFFD []).I.toNat) ∧
    (∃ t, exec (.store 1) (regsMem [] 0x300 []) = .next t ∧ (regsMem [] 0x300 []).I.toNat + storedBytes (.store 1) ≤ 0x302) ∧
    ∃ t, exec (.jp 0x300) (regsMem [] 0x300 []) = .next t ∧ (regsMem [] 0x300 []).I.toNat + storedBytes (.jp 0x300) ≤ 0x300 :=
  ⟨⟨_, rfl, by decide⟩, ⟨_, rfl, by decide⟩, ⟨_, rfl, by decide⟩⟩

/-- For the statements about every instruction and every next state: some instruction has a next state, outside their exceptions. -/
theorem witness_frames : ∃ t, exec (.jp 0x300) State.reset = .next t ∧ (∀ p, Instr.jp 0x300 ≠ .cls p) ∧
    (∀ x y n, Instr.jp 0x300 ≠ .drw x y n) ∧ (∀ x, Instr.jp 0x300 ≠ .ldDTVx x) ∧ (∀ x, Instr.jp 0x300 ≠ .ldSTVx x) ∧
    (∀ nnn, Instr.jp 0x300 ≠ .call nnn) ∧ (∀ p, Instr.jp 0x300 ≠ .ret p) ∧ (∀ nnn, Instr.jp 0x300 ≠ .ldI nnn) ∧
    (∀ x, Instr.jp 0x300 ≠ .addI x) ∧ (∀ x, Instr.jp 0x300 ≠ .ldF x) := by
  refine ⟨_, rfl, ?_, ?_, ?_, ?_, ?_, ?_, ?_, ?_, ?_⟩ <;> intros <;> simp

/-- The entries of the stack beside the one pushed, the first and the last. -/
theorem witness_OnlyCallAndRetMoveStack : ∃ t, exec (.call 0x300) (stacked 11) = .next t ∧ 0 ≠ (stacked 11).sp.val ∧ 10 ≠ (stacked 11).sp.val :=
  ⟨_, rfl, by decide, by decide⟩

/-- The registers next to those written: V4 after FX65 with x = 3, VE after 8XY4. -/
theorem witness_GeneralRegisterWriters :
    (∃ t, exec (.load 3) State.reset = .next t ∧ ¬ mayWriteReg (.load 3) 4) ∧
    (∃ t, exec (.addReg 0 1) State.reset = .next t ∧ ¬ mayWriteReg (.addReg 0 1) 14) :=
  ⟨⟨_, rfl, by simp [mayWriteReg]⟩, ⟨_, rfl, by simp [mayWriteReg]⟩⟩

theorem witness_IndexRegisterWriters : (∃ t, exec (.ldI 0xFFF) State.reset = .next t) ∧ (∃ t, exec (.ldF 1) (regs [(1, 0xFF)]) = .next t) :=
  ⟨⟨_, rfl⟩, ⟨_, rfl⟩⟩

/-- One instruction that raises no fault, and one that does. -/
theorem witness_PcChangesOnlyAsListed :
    (∃ t, State.reset.fault = none ∧ exec (.jpV0 0xFFF) State.reset = .next t ∧ t.fault = none) ∧
    ∃ t, exec (.ret 0) State.reset = .next t ∧ t.fault ≠ none := ⟨⟨_, rfl, rfl, rfl⟩, ⟨_, rfl, by decide⟩⟩

/-- A low byte next to those of CLS and RET. -/
theorem witness_SysAndJumpLoadPc : (0xE1 : Byte) ≠ 0xE0 ∧ (0xE1 : Byte) ≠ 0xEE ∧ (Instr.sys 0xFFF = .sys 0xFFF ∨ Instr.sys 0xFFF = .jp 0xFFF) := by
  decide

/-- T-CF-7: 0xF00 + 0xFF = 0xFFF is the first pc that cannot be fetched from. -/
theorem witness_JumpWithOffset : ∃ t, exec (.jpV0 0xF00) (regs [(0, 0xFF)]) = .next t ∧ (regs [(0, 0xFF)]).fault = none ∧ 0xFFE < t.pc.toNat :=
  ⟨_, rfl, rfl, by decide⟩

/-- The last entry is free, and none is. -/
theorem witness_CallPushesAndJumps : (stacked 11).sp.val < 12 ∧ (stacked 12).fault = none ∧ (stacked 12).sp.val = 12 := by decide

/-- The first and the last entry, and an empty stack. -/
theorem witness_ReturnPops : (stacked 1).sp.val = 0 + 1 ∧ (stacked 12).sp.val = 11 + 1 ∧ (stacked 0).fault = none ∧ (stacked 0).sp.val = 0 := by
  decide

theorem witness_CallThenReturnBalances : (stacked 11).sp.val < 12 ∧ (∃ t, ∃ u : State, exec (.call 0x300) (stacked 11) = .next t ∧
    u.sp = t.sp ∧ u.stack = t.stack) ∧ (stacked 12).fault = none ∧ (stacked 12).sp.val = 12 :=
  ⟨by decide, ⟨_, _, rfl, rfl, rfl⟩, rfl, rfl⟩

/-- Key 0xF, and the first index out of range. -/
theorem witness_SkipsOnKey : ((regs [(5, 0x0F)]).reg 5).toNat = (15 : KeyIdx).val ∧ (regs [(5, 0x10)]).fault = none ∧
    0xF < ((regs [(5, 0x10)]).reg 5).toNat := by decide

theorem witness_RandomByteMasked : (0x0F : Byte).getLsbD 4 = false := by decide

/-- The last I that is in range, the byte below, and the first I that is not. -/
theorem witness_DecimalStore : (regsMem [] 0xFFD []).I.toNat + 2 ≤ 0xFFF ∧ 0xFFC < (regsMem [] 0xFFD []).I.toNat ∧
    (regsMem [] 0xFFE []).fault = none ∧ 0xFFF < (regsMem [] 0xFFE []).I.toNat + 2 := by decide

/-- For FX55 and FX65: x = 0xF at the last I that is in range, and at the first that is not. -/
theorem witness_RegisterBlocks : (regsMem [] 0xFF0 []).I.toNat + (15 : RegIdx).val ≤ 0xFFF ∧ (0 : RegIdx) ≤ 15 ∧ (3 : RegIdx) < 4 ∧
    0xFEF < (regsMem [] 0xFF0 []).I.toNat ∧ (regsMem [] 0xFF1 []).fault = none ∧ 0xFFF < (regsMem [] 0xFF1 []).I.toNat + (15 : RegIdx).val := by
  decide

theorem witness_StoredBytesAreFetched : (regsMem [] 0xFFE []).I.toNat + (1 : RegIdx).val ≤ 0xFFF ∧ (1 : RegIdx).val = (0 : RegIdx).val + 1 ∧
    (1 : RegIdx) ≤ 1 ∧ (0xFFE : Word).toNat = (regsMem [] 0xFFE []).I.toNat + (0 : RegIdx).val := by decide

/-- For the sprite statements: no row at the top I, two rows at the last I in range, and at the first that is not. -/
theorem witness_SpriteDrawCellByCell : ((0 : Nibble) = 0 ∨ (regsMem [] 0xFFFF []).I.toNat + ((0 : Nibble).toNat - 1) ≤ 0xFFF) ∧
    (regsMem [] 0xFFFF []).I = 0xFFFF ∧ (regsMem [] 0xFFE []).I.toNat + ((2 : Nibble).toNat - 1) ≤ 0xFFF ∧
    (regsMem [] 0xFFF []).fault = none ∧ (2 : Nibble) ≠ 0 ∧ 0xFFF < (regsMem [] 0xFFF []).I.toNat + ((2 : Nibble).toNat - 1) := by decide

/-- T-DSP-2: the cell at row 0 and column 7 changes. -/
theorem witness_SpriteStaysInItsWindow : ∃ t, exec (.drw 0 1 1) (regsMem [] 0x300 [0x81]) = .next t ∧
    t.disp.cell (0 * 64 + 7) ≠ (regsMem [] 0x300 [0x81]).disp.cell (0 * 64 + 7) := ⟨_, rfl, by decide⟩

theorem witness_KeyWait : (∀ k, State.reset.keyDown k = false) ∧ key7.keyDown 7 = true := by decide

theorem witness_UndefIsNoOp : (Instr.undef8XY8 0 0).op = .UNDEF ∧ (Instr.undefE 0 0).op = .UNDEF ∧ (Instr.undefF 0 0).op = .UNDEF ∧
    (atWord 0x8008 State.reset).fault = none ∧ (atWord 0x8008 State.reset).pc.toNat ≤ 0xFFE ∧
    (decodeWord (atWord 0x8008 State.reset).fetchWord).op = .UNDEF := by decide

/-- For the timer statements: a timer at 0 and one at 1. -/
theorem witness_TickCountsDown : State.Safe { State.reset with DT := 0, ST := 1 } := by decide

/-- A running machine whose next poll sets a key and pauses it. -/
theorem witness_OneTickPerSlice : pollsPause.runState = .Running ∧ NoResetNext pollsPause :=
  ⟨rfl, by simp [NoResetNext, pollsPause]⟩

theorem witness_PausedHoldsBlock : ∃ t, ({ pollsPause with runState := .Paused } : State).runState = .Paused ∧
    NoResetNext { pollsPause with runState := .Paused } ∧ step { pollsPause with runState := .Paused } = .next t :=
  ⟨_, rfl, by simp [NoResetNext, pollsPause], rfl⟩

/-- A paused machine and one at the end of a slice, each with a poll coming, and one with none. -/
theorem witness_PollDeliversKeysAndSignals : ({ pollsPause with runState := .Paused } : State).runState = .Paused ∧
    ({ pollsPause with stepsLeft := 0 } : State).runState = .Running ∧ ({ pollsPause with stepsLeft := 0 } : State).stepsLeft = 0 ∧
    pollsPause.inbox = ⟨[(7, true)], [.pauseToggle]⟩ :: [] ∧ State.reset.inbox = [] := by decide

theorem witness_RunStateTransitions : State.reset.runState = .Running ∧ State.reset.runState ≠ .Quit ∧
    ({ State.reset with runState := .Paused } : State).runState = .Paused ∧
    ({ State.reset with runState := .Quit } : State).runState = .Quit := by decide

/-- The largest ROM (R7) and the fewest steps (R273), with a byte of the font, of the ROM and of the rest. -/
theorem witness_ResetReinitialisesBlock :
    let p : Params := { font := Config.font, rom := List.replicate 3584 0x12, stepsPerSlice := 1 }
    p.wf ∧ 3583 < p.rom.length ∧ 0x1FF < 0x200 ∧ State.reset.runState ≠ .Quit := by
  have h : (List.replicate 3584 (0x12 : Byte)).length = 3584 := List.length_replicate
  exact ⟨⟨h.le, Nat.one_pos⟩, by dsimp only; omega, by decide, by decide⟩

theorem witness_CanonicalMemoryIsUnique : Memory.wf [(0x300, 1), (0xFFF, 2)] ∧ Memory.wf (Memory.write [(0xFFF, 2)] 0x300 1) := by decide

theorem witness_CreatedMachineMeetsInvariants : Params.default.wf := by decide

theorem witness_StepKeepsInvariants : (∃ t, step State.reset = .next t) ∧ State.reset.MemoryCanonical ∧ State.reset.PcBounded :=
  ⟨⟨_, rfl⟩, by decide, by decide, fun k h => by simp [State.reset]⟩

/-- A state with a recorded fault that is the fault of the instruction at pc. -/
theorem witness_StepKeepsFaultRecordCurrent : ∃ t, State.FaultRecordCurrent { atWord 0x00EE State.reset with
      fault := some ⟨.StackUnderflow, 0x200, 0x00EE, 0⟩ } ∧
    step { atWord 0x00EE State.reset with fault := some ⟨.StackUnderflow, 0x200, 0x00EE, 0⟩ } = .next t := by
  refine ⟨_, ?_, rfl⟩
  intro f h
  cases h
  decide

end Sys2Proof.Tests
end

section
/-! PROOFS. The state elements of 10_state.md. Once for all statements: an instruction either raises the fault of R241's
table or has its effect (`exec_eq`), and what each of the two writes. -/

namespace Sys2Proof.Machine

open Sys2Proof.Spec

/-! ### What an instruction does: its fault, or its effect -/

/-- A skip's effect: 2 more where its condition holds (R16). -/
def State.skip (s : State) (c : Bool) : State := s.setPc (if c then s.pc + 2 else s.pc)

/-- The key that the low nibble of V[x] names: V[x] itself where it is at most 0xF (R124). -/
def State.namedKeyDown (s : State) (x : RegIdx) : Bool := s.keyDown (Fin.ofNat 16 (s.reg x).toNat)

/-- FX0A's effect, given the selected key, if one is pressed (R221). -/
def State.keyWait (s : State) (x : RegIdx) : Option KeyIdx → State
  | none => s.rewindPc
  | some k => { s.setReg x (keyByte k) with keyDraws := s.keyDraws + 1 }

/-- The effect of an instruction for which the table of faults R241 has none: what `exec` answers then (`exec_eq`). -/
def effect (i : Instr) (s : State) : State :=
  match i with
  | .cls _ => { s with disp := Display.clear, dirty := true }
  | .ret _ => { s with pc := s.stack[s.sp.val - 1], sp := ⟨s.sp.val - 1, by omega⟩ }
  | .sys nnn | .jp nnn => s.setPc (zext16 nnn)
  | .call nnn =>
    { s with stack := s.stack.setIfInBounds s.sp.val s.pc, sp := Fin.ofNat 13 (s.sp.val + 1), pc := zext16 nnn }
  | .jpV0 nnn => s.setPc (zext16 nnn + zext16 (s.reg 0))
  | .seImm x nn => s.skip (s.reg x == nn)
  | .sneImm x nn => s.skip (s.reg x != nn)
  | .seReg x y _ => s.skip (s.reg x == s.reg y)
  | .sneReg x y _ => s.skip (s.reg x != s.reg y)
  | .skp x => s.skip (s.namedKeyDown x == true)
  | .sknp x => s.skip (s.namedKeyDown x == false)
  | .ldImm x nn => s.setReg x nn
  | .addImm x nn => s.writeAlu x (alu .ADDI (s.reg x) nn)
  | .ldReg x y => s.writeAlu x (alu .MOV (s.reg x) (s.reg y))
  | .orReg x y => s.writeAlu x (alu .OR (s.reg x) (s.reg y))
  | .andReg x y => s.writeAlu x (alu .AND (s.reg x) (s.reg y))
  | .xorReg x y => s.writeAlu x (alu .XOR (s.reg x) (s.reg y))
  | .addReg x y => s.writeAlu x (alu .ADD (s.reg x) (s.reg y))
  | .subReg x y => s.writeAlu x (alu .SUB (s.reg x) (s.reg y))
  | .shr x y => s.writeAlu x (alu .SHR (s.reg x) (s.reg y))
  | .subnReg x y => s.writeAlu x (alu .SUBN (s.reg x) (s.reg y))
  | .shl x y => s.writeAlu x (alu .SHL (s.reg x) (s.reg y))
  | .rnd x nn => { s.setReg x (Config.rand s.randDraws &&& nn) with randDraws := s.randDraws + 1 }
  | .drw x y n => s.drawEffect x y n
  | .ldI nnn => s.setI (zext16 nnn)
  | .addI x => s.setI (trunc16 (s.I.toNat + (s.reg x).toNat))
  | .ldF x => s.setI (glyphAddr (s.reg x))
  | .ldB x => { s with mem := s.mem.writeBytes s.I.toNat (bcdDigits (s.reg x)) }
  | .store x => { s with mem := s.mem.writeBytes s.I.toNat (s.regBlock x) }
  | .load x => s.loadBlock x
  | .ldVxDT x => s.setReg x s.DT
  | .ldVxK x => s.keyWait x (selectKey s.keyDraws s.pressed)
  | .ldDTVx x => { s with DT := s.reg x }
  | .ldSTVx x => { s with ST := s.reg x }
  | .undef8XY8 _ _ | .undef8XY9 _ _ | .undef8XYA _ _ | .undef8XYB _ _ | .undef8XYC _ _ | .undef8XYD _ _
  | .undef8XYF _ _ | .undefE _ _ | .undefF _ _ => s

/-- What `exec` answers for `i` from `s` (`exec_eq`): the fault that the table gives, or the next state `t` where it gives
none. -/
def faultOrEffect (i : Instr) (s t : State) : Option (FaultKind × Nat) → Host.Outcome State Fault Refusal
  | some f => raiseFault i f.1 f.2 s
  | none => .next t

/-- A skip's answer. -/
theorem skipIf_eq (c : Bool) (s : State) : skipIf c s = .next (s.skip c) := by
  cases c <;> rfl

/-- A data access raises the fault of R57 or has its effect. -/
theorem guardData_eq (i : Instr) (count : Nat) (s : State) (eff : State → State) :
    guardData i count s eff = faultOrEffect i s (eff s) (dataFault s count) := by
  unfold dataFault
  split
  · rename_i h
    have hinfo : (if 0xFFF < s.I.toNat then s.I.toNat else 0x1000) = max s.I.toNat 4096 := by
      split <;> omega
    rw [guardData_outOfRange i count s eff (by omega) (by omega), hinfo]
    rfl
  · rename_i h
    exact guardData_inRange i count s eff (by omega)

/-- A skip on a key raises KeyIndexOutOfRange for V[x] above 0xF, else looks at the key V[x] names (R124, R125). -/
theorem skipOnKey_eq (i : Instr) (x : RegIdx) (down : Bool) (s : State) :
    skipOnKey i x down s = faultOrEffect i s (s.skip (s.namedKeyDown x == down))
      (if 0xF < (s.reg x).toNat then some (.KeyIndexOutOfRange, (s.reg x).toNat) else none) := by
  unfold skipOnKey
  split
  · rename_i h
    have hkey : (⟨(s.reg x).toNat, h⟩ : KeyIdx) = Fin.ofNat 16 (s.reg x).toNat :=
      Fin.ext (Nat.mod_eq_of_lt h).symm
    rw [if_neg (by omega), skipIf_eq, hkey]
    rfl
  · rename_i h
    rw [if_pos (by omega)]
    rfl

/-- 2NNN overflows at sp = 12, else pushes and jumps (R104). -/
theorem execCall_eq (nnn : Addr12) (s : State) :
    execCall nnn s = faultOrEffect (.call nnn) s (effect (.call nnn) s) (modelFault (.call nnn) s) := by
  by_cases h : s.sp.val = 12
  · simp [execCall, push_full, modelFault, faultOrEffect, h]
  · have hlt : s.sp.val < 12 := by omega
    have hsp : (⟨s.sp.val + 1, by omega⟩ : Fin 13) = Fin.ofNat 13 (s.sp.val + 1) :=
      Fin.ext (Nat.mod_eq_of_lt (by omega)).symm
    have hstack : s.stack.set s.sp.val s.pc hlt = s.stack.setIfInBounds s.sp.val s.pc := by
      ext k hk
      rw [Vector.getElem_set, Vector.getElem_setIfInBounds]
    simp [execCall, push_eq, modelFault, faultOrEffect, jumpTo, effect, State.setPc, h, hlt, hsp, hstack]

/-- 00EE underflows at sp = 0, else pops (R101). -/
theorem execRet_eq (pad : Nibble) (s : State) :
    execRet pad s = faultOrEffect (.ret pad) s (effect (.ret pad) s) (modelFault (.ret pad) s) := by
  by_cases h : s.sp.val = 0
  · simp [execRet, pop_empty, modelFault, faultOrEffect, h]
  · simp [execRet, pop_eq, modelFault, faultOrEffect, jumpTo, effect, State.setPc, h, Nat.pos_of_ne_zero]

theorem execLdVxK_eq (x : RegIdx) (s : State) : execLdVxK x s = .next (effect (.ldVxK x) s) := by
  unfold execLdVxK effect
  cases selectKey s.keyDraws s.pressed <;> rfl

/-- Every instruction raises the fault that R241's table has for it, or has its effect. -/
theorem exec_eq (i : Instr) (s : State) : exec i s = faultOrEffect i s (effect i s) (modelFault i s) := by
  cases i with
  | call nnn => exact execCall_eq nnn s
  | ret pad => exact execRet_eq pad s
  | skp x => exact skipOnKey_eq _ x true s
  | sknp x => exact skipOnKey_eq _ x false s
  | drw x y n => exact guardData_eq _ n.toNat s (effect (.drw x y n))
  | ldB x => exact guardData_eq _ 3 s (effect (.ldB x))
  | store x => exact guardData_eq _ (x.val + 1) s (effect (.store x))
  | load x => exact guardData_eq _ (x.val + 1) s (effect (.load x))
  | seImm x nn => exact skipIf_eq _ s
  | sneImm x nn => exact skipIf_eq _ s
  | seReg x y pad => exact skipIf_eq _ s
  | sneReg x y pad => exact skipIf_eq _ s
  | ldVxK x => exact execLdVxK_eq x s
  | _ => rfl

theorem exec_of_noFault {i : Instr} {s : State} (h : modelFault i s = none) : exec i s = .next (effect i s) := by
  rw [exec_eq, h]
  rfl

theorem exec_of_fault {i : Instr} {s : State} {f : FaultKind × Nat} (h : modelFault i s = some f) :
    exec i s = raiseFault i f.1 f.2 s := by
  rw [exec_eq, h]
  rfl

/-- All an instruction's next state can be: the advance undone and a fault recorded, or the instruction's effect. -/
theorem exec_next_cases {i : Instr} {s t : State} (h : exec i s = .next t) :
    (∃ f, modelFault i s = some f ∧ t = s.rewindPc.recordFault ⟨f.1, s.pc - 2, encode i, f.2⟩) ∨
      (modelFault i s = none ∧ t = effect i s) := by
  cases hf : modelFault i s with
  | none =>
    rw [exec_of_noFault hf] at h
    cases h
    exact .inr ⟨rfl, rfl⟩
  | some f =>
    rw [exec_of_fault hf] at h
    cases h
    exact .inl ⟨f, rfl, rfl⟩

/-! ### What an effect leaves as it was -/

section Effect

variable (s : State)

/-- FX0A writes V[x], pc and the model's count of key draws. -/
theorem keyWait_frame (x : RegIdx) (k : Option KeyIdx) :
    s.keyWait x k = { s with V := (s.keyWait x k).V, pc := (s.keyWait x k).pc, keyDraws := (s.keyWait x k).keyDraws } := by
  cases k <;> rfl

/-- No instruction's effect writes the keypad, `tone`, the fault register or anything of the host's (R31, R33, R34). -/
theorem effect_frame (i : Instr) :
    effect i s = { effect i s with
      key := s.key, tone := s.tone, fault := s.fault, runState := s.runState, stepsLeft := s.stepsLeft,
      inbox := s.inbox, params := s.params } := by
  cases i with
  | ldVxK x =>
    rw [effect, keyWait_frame]
  | _ => rfl

@[simp] theorem effect_key (i : Instr) : (effect i s).key = s.key := by rw [effect_frame]
@[simp] theorem effect_tone (i : Instr) : (effect i s).tone = s.tone := by rw [effect_frame]
@[simp] theorem effect_fault (i : Instr) : (effect i s).fault = s.fault := by rw [effect_frame]
@[simp] theorem effect_runState (i : Instr) : (effect i s).runState = s.runState := by rw [effect_frame]
@[simp] theorem effect_stepsLeft (i : Instr) : (effect i s).stepsLeft = s.stepsLeft := by rw [effect_frame]
@[simp] theorem effect_inbox (i : Instr) : (effect i s).inbox = s.inbox := by rw [effect_frame]
@[simp] theorem effect_params (i : Instr) : (effect i s).params = s.params := by rw [effect_frame]

theorem effect_DT {i : Instr} (h : ∀ x, i ≠ .ldDTVx x) : (effect i s).DT = s.DT := by
  cases i with
  | ldDTVx x => exact absurd rfl (h x)
  | ldVxK x => rw [effect, keyWait_frame]
  | _ => rfl

theorem effect_ST {i : Instr} (h : ∀ x, i ≠ .ldSTVx x) : (effect i s).ST = s.ST := by
  cases i with
  | ldSTVx x => exact absurd rfl (h x)
  | ldVxK x => rw [effect, keyWait_frame]
  | _ => rfl

theorem effect_stack {i : Instr} (h : ∀ nnn, i ≠ .call nnn) : (effect i s).stack = s.stack := by
  cases i with
  | call nnn => exact absurd rfl (h nnn)
  | ldVxK x => rw [effect, keyWait_frame]
  | _ => rfl

theorem effect_sp {i : Instr} (hcall : ∀ nnn, i ≠ .call nnn) (hret : ∀ p, i ≠ .ret p) : (effect i s).sp = s.sp := by
  cases i with
  | call nnn => exact absurd rfl (hcall nnn)
  | ret pad => exact absurd rfl (hret pad)
  | ldVxK x => rw [effect, keyWait_frame]
  | _ => rfl

/-- A call writes the entry at sp alone. -/
theorem effect_call_stack (nnn : Addr12) (k : Nat) (hk : k < 12) :
    (effect (.call nnn) s).stack[k] = if s.sp.val = k then s.pc else s.stack[k] := by
  simp [effect, Vector.getElem_setIfInBounds]

theorem effect_stack_getElem (i : Instr) (k : Nat) (hk : k < 12) (hne : k ≠ s.sp.val) :
    (effect i s).stack[k] = s.stack[k] := by
  by_cases h : ∃ nnn, i = .call nnn
  · obtain ⟨nnn, rfl⟩ := h
    rw [effect_call_stack, if_neg hne.symm]
  · rw [effect_stack s fun nnn e => h ⟨nnn, e⟩]

theorem effect_I {i : Instr} (hldI : ∀ nnn, i ≠ .ldI nnn) (haddI : ∀ x, i ≠ .addI x) (hldF : ∀ x, i ≠ .ldF x) :
    (effect i s).I = s.I := by
  cases i with
  | ldI nnn => exact absurd rfl (hldI nnn)
  | addI x => exact absurd rfl (haddI x)
  | ldF x => exact absurd rfl (hldF x)
  | ldVxK x => rw [effect, keyWait_frame]
  | _ => rfl

/-! ### The general registers -/

/-- An ALU operation without a flag writes V[x] alone. -/
theorem reg_writeAlu_noFlag {x q : RegIdx} {o : AluOut} (ho : o.f = none) (hq : q ≠ x) :
    (s.writeAlu x o).reg q = s.reg q := by
  simp [reg_writeAlu, ho, hq]

/-- An ALU operation writes V[x] and VF alone (R132). -/
theorem reg_writeAlu_other {x q : RegIdx} (o : AluOut) (hq : ¬ (q = x ∨ q = 15)) :
    (s.writeAlu x o).reg q = s.reg q := by
  obtain ⟨hx, hVF⟩ := not_or.1 hq
  rw [reg_writeAlu]
  cases o.f <;> simp [VF, hx, hVF]

theorem reg_setReg_other {x q : RegIdx} (b : Byte) (hq : q ≠ x) : (s.setReg x b).reg q = s.reg q := by
  rw [reg_setReg, if_neg hq]

/-- Every general register that R22 does not list for the instruction is as before. -/
theorem effect_reg {i : Instr} {q : RegIdx} (h : ¬ mayWriteReg i q) : (effect i s).reg q = s.reg q := by
  cases i with
  | ldImm x nn => exact reg_setReg_other s _ h
  | rnd x nn => exact reg_setReg_other s _ h
  | ldVxDT x => exact reg_setReg_other s _ h
  | drw x y n => exact reg_setReg_other s _ h
  | ldVxK x =>
    rw [effect]
    cases selectKey s.keyDraws s.pressed with
    | none => rfl
    | some k => exact reg_setReg_other s _ h
  | addImm x nn => exact reg_writeAlu_noFlag s rfl h
  | ldReg x y => exact reg_writeAlu_noFlag s rfl h
  | orReg x y => exact reg_writeAlu_noFlag s rfl h
  | andReg x y => exact reg_writeAlu_noFlag s rfl h
  | xorReg x y => exact reg_writeAlu_noFlag s rfl h
  | addReg x y => exact reg_writeAlu_other s _ h
  | subReg x y => exact reg_writeAlu_other s _ h
  | shr x y => exact reg_writeAlu_other s _ h
  | subnReg x y => exact reg_writeAlu_other s _ h
  | shl x y => exact reg_writeAlu_other s _ h
  | load x => exact (reg_loadBlock s x q).trans (if_neg h)
  | _ => rfl

/-! ### pc -/

@[simp] theorem toNat_zext16 {w : Nat} (v : BitVec w) (hw : w ≤ 16) : (zext16 v).toNat = v.toNat :=
  BitVec.toNat_setWidth_of_le hw

/-- A glyph's address is at most that of glyph F (R183). -/
theorem glyphAddr_le (v : Byte) : (glyphAddr v).toNat ≤ 0x4B := by
  have hnib : (v &&& 0x0F).toNat ≤ 0xF := by
    rw [BitVec.toNat_and]
    exact Nat.and_le_right
  calc (glyphAddr v).toNat = (v &&& 0x0F).toNat * 5 % 2 ^ 16 := BitVec.toNat_ofNat _ _
    _ ≤ (v &&& 0x0F).toNat * 5 := Nat.mod_le _ _
    _ ≤ 0x4B := by omega

theorem skip_pc (c : Bool) : (s.skip c).pc = s.pc ∨ (s.skip c).pc = s.pc + 2 := by
  cases c
  · exact .inl rfl
  · exact .inr rfl

/-- The sum of BNNN does not wrap (R105). -/
theorem effect_jpV0_pc (nnn : Addr12) : (effect (.jpV0 nnn) s).pc.toNat = nnn.toNat + (s.reg 0).toNat := by
  have hsum : nnn.toNat + (s.reg 0).toNat < 2 ^ 16 := by omega
  rw [effect, setPc_pc, BitVec.toNat_add, toNat_zext16 _ (by omega), toNat_zext16 _ (by omega), Nat.mod_eq_of_lt hsum]

/-- After an instruction with no fault pc stands where R25 lists it. -/
theorem effect_pc {i : Instr} (h : modelFault i s = none) : pcAllowed i s (effect i s) := by
  cases i with
  | seImm x nn => exact skip_pc s _
  | sneImm x nn => exact skip_pc s _
  | seReg x y pad => exact skip_pc s _
  | sneReg x y pad => exact skip_pc s _
  | skp x => exact skip_pc s _
  | sknp x => exact skip_pc s _
  | sys nnn => exact toNat_zext16 nnn (by omega)
  | jp nnn => exact toNat_zext16 nnn (by omega)
  | call nnn => exact toNat_zext16 nnn (by omega)
  | jpV0 nnn => exact effect_jpV0_pc s nnn
  | ret pad =>
    have hsp : s.sp.val ≠ 0 := fun h0 => by simp [modelFault, h0] at h
    exact ⟨s.sp.val - 1, by omega, by omega, rfl⟩
  | ldVxK x =>
    rw [pcAllowed, effect]
    cases selectKey s.keyDraws s.pressed with
    | none => exact .inr rfl
    | some k => exact .inl rfl
  | _ => rfl

end Effect

/-! ### Which instructions write which element -/

/-- Settles O15: a fault writes pc and the fault register, and no effect but FX15's and FX18's writes any of these. -/
theorem timersToneAndKeypadWriters : Obligations.TimersToneAndKeypadWriters := by
  intro i s t h
  obtain ⟨f, -, rfl⟩ | ⟨-, rfl⟩ := exec_next_cases h
  · simp
  · exact ⟨effect_DT s, effect_ST s, by simp⟩

/-- Settles O16: a fault leaves the stack, and so does every effect but a call's and a return's. -/
theorem onlyCallAndRetMoveStack : Obligations.OnlyCallAndRetMoveStack := by
  intro i s t h
  obtain ⟨f, -, rfl⟩ | ⟨-, rfl⟩ := exec_next_cases h
  · simp
  · exact ⟨effect_stack s, effect_sp s, effect_stack_getElem s i⟩

/-- Settles O17, from what each effect writes (`effect_reg`). -/
theorem generalRegisterWriters : Obligations.GeneralRegisterWriters := by
  intro i s t q h hq
  obtain ⟨f, -, rfl⟩ | ⟨-, rfl⟩ := exec_next_cases h
  · simp [State.reg]
  · exact effect_reg s hq

/-- Settles O18: the three instructions that write I raise no fault, and their effects give the bounds. -/
theorem indexRegisterWriters : Obligations.IndexRegisterWriters := by
  intro i s t h
  obtain ⟨f, hf, rfl⟩ | ⟨-, rfl⟩ := exec_next_cases h
  · refine ⟨by simp, ?_, ?_⟩
    · rintro nnn rfl
      cases hf
    · rintro x rfl
      cases hf
  · refine ⟨effect_I s, ?_, ?_⟩
    · rintro nnn rfl
      rw [effect, setI_I, toNat_zext16 nnn (by omega)]
      omega
    · rintro x rfl
      exact glyphAddr_le _

/-- Settles O19: the fault register tells which of the two cases of `exec_next_cases` has happened. -/
theorem pcChangesOnlyAsListed : Obligations.PcChangesOnlyAsListed := by
  intro i s t hs h
  obtain ⟨f, -, rfl⟩ | ⟨hf, rfl⟩ := exec_next_cases h
  · simp
  · exact ⟨fun _ => effect_pc s hf, fun hne => absurd (by simp [hs]) hne⟩

/-! ### The step event -/

theorem blockStep_of_faulted {s : State} {f : FaultRecord} (h : s.fault = some f) : blockStep s = .next s := by
  rw [blockStep, h]

theorem blockStep_of_fetchable {s : State} (h : s.fault = none) (hpc : s.pc.toNat ≤ 0xFFE) :
    blockStep s = exec (decodeWord s.fetchWord) s.advancePc := by
  simp [blockStep, h, State.fetchable, hpc]

theorem blockStep_of_unfetchable {s : State} (h : s.fault = none) (hpc : ¬ s.pc.toNat ≤ 0xFFE) :
    blockStep s = .next s.raiseFetchFault := by
  simp [blockStep, h, State.fetchable, hpc]

/-! ### What no program observes -/

/-- `s` with the elements that no program observes taken from `h`. -/
def State.withHidden (s h : State) : State :=
  { s with
    stack := h.stack, ST := h.ST, dirty := h.dirty, tone := h.tone, runState := h.runState,
    stepsLeft := h.stepsLeft, inbox := h.inbox, params := h.params }

/-- The entries of the stack below `s.sp` are those of `h`. -/
def LiveStackAgrees (s h : State) : Prop := ∀ k, ∀ hk : k < 12, k < s.sp.val → s.stack[k] = h.stack[k]

/-- Two states look the same to programs where they differ in hidden elements only and agree in the live stack. -/
theorem sameToPrograms_withHidden {s h : State} (hlive : LiveStackAgrees s h) : SameToPrograms s (s.withHidden h) :=
  ⟨rfl, rfl, rfl, rfl, hlive, rfl, rfl, rfl, rfl, rfl, rfl, rfl⟩

theorem eq_withHidden {s t : State} (h : SameToPrograms s t) : t = s.withHidden t := by
  obtain ⟨hV, hI, hpc, hsp, -, hDT, hdisp, hkey, hmem, hfault, hrand, hkeyDraws⟩ := h
  rw [State.withHidden, hV, hI, hpc, hsp, hDT, hdisp, hkey, hmem, hfault, hrand, hkeyDraws]

theorem liveStackAgrees {s t : State} (h : SameToPrograms s t) : LiveStackAgrees s t := by
  obtain ⟨-, -, -, -, hlive, -⟩ := h
  exact hlive

/-- The table of faults reads no hidden element. -/
theorem modelFault_withHidden (i : Instr) (s h : State) : modelFault i (s.withHidden h) = modelFault i s := by
  cases i <;> rfl

/-- The effect of an instruction reads no hidden element but to leave it hidden: of the stack, only a return loads an
entry, which is a live one. -/
theorem effect_withHidden {i : Instr} {s h : State} (hf : modelFault i s = none) (hlive : LiveStackAgrees s h) :
    effect i (s.withHidden h) = (effect i s).withHidden (effect i (s.withHidden h)) := by
  cases i with
  | ret pad =>
    have hsp : s.sp.val ≠ 0 := fun h0 => by simp [modelFault, h0] at hf
    have hentry : s.stack[s.sp.val - 1] = h.stack[s.sp.val - 1] := hlive _ (by omega) (by omega)
    simp [effect, State.withHidden, hentry]
  | ldVxK x =>
    change (s.withHidden h).keyWait x (selectKey s.keyDraws s.pressed) =
      (s.keyWait x (selectKey s.keyDraws s.pressed)).withHidden
        ((s.withHidden h).keyWait x (selectKey s.keyDraws s.pressed))
    cases selectKey s.keyDraws s.pressed <;> rfl
  | _ => rfl

/-- The live stacks agree after an effect: a call pushes the same entry on both. -/
theorem effect_liveStackAgrees {i : Instr} {s h : State} (hf : modelFault i s = none) (hlive : LiveStackAgrees s h) :
    LiveStackAgrees (effect i s) (effect i (s.withHidden h)) := by
  cases i with
  | call nnn =>
    intro k hk hlt
    have hsp : s.sp.val ≠ 12 := fun h12 => by simp [modelFault, h12] at hf
    have hk' : k < s.sp.val + 1 := by
      simpa [effect, Nat.mod_eq_of_lt (show s.sp.val + 1 < 13 by omega)] using hlt
    rw [effect_call_stack, effect_call_stack]
    change (if s.sp.val = k then s.pc else s.stack[k]) = if s.sp.val = k then s.pc else h.stack[k]
    split_ifs with htop
    · rfl
    · exact hlive k hk (by omega)
  | ret pad => exact fun k hk hlt => hlive k hk (Nat.lt_of_lt_of_le hlt (Nat.sub_le _ _))
  | ldVxK x =>
    simpa [LiveStackAgrees, effect_stack, effect_sp, State.withHidden] using hlive
  | _ => exact hlive

/-- Effects on states that look the same to programs give states that look the same. -/
theorem effect_sameToPrograms {i : Instr} {s h : State} (hf : modelFault i s = none) (hlive : LiveStackAgrees s h) :
    SameToPrograms (effect i s) (effect i (s.withHidden h)) := by
  rw [effect_withHidden hf hlive]
  exact sameToPrograms_withHidden (effect_liveStackAgrees hf hlive)

theorem recordFault_withHidden (s h : State) (f : FaultRecord) :
    (s.withHidden h).recordFault f = (s.recordFault f).withHidden h := by
  cases hf : s.fault <;> simp [State.recordFault, State.withHidden, hf]

/-- Recording one fault in states that look the same to programs gives states that look the same. -/
theorem recordFault_sameToPrograms {s t : State} (f : FaultRecord) (h : SameToPrograms s t) :
    SameToPrograms (s.recordFault f) (t.recordFault f) := by
  have hlive : LiveStackAgrees (s.recordFault f) t := by
    simpa [LiveStackAgrees] using liveStackAgrees h
  rw [eq_withHidden h, recordFault_withHidden]
  exact sameToPrograms_withHidden hlive

theorem setPc_sameToPrograms {s t : State} (w : Word) (h : SameToPrograms s t) :
    SameToPrograms (s.setPc w) (t.setPc w) := by
  have hlive := liveStackAgrees h
  rw [eq_withHidden h]
  exact sameToPrograms_withHidden (s := s.setPc w) hlive

/-- An instruction run on states that look the same to programs gives states that look the same. -/
theorem exec_sameToPrograms {i : Instr} {s s' t : State} (h : SameToPrograms s s') (ht : exec i s = .next t) :
    ∃ t', exec i s' = .next t' ∧ SameToPrograms t t' := by
  have hfault : modelFault i s' = modelFault i s := by rw [eq_withHidden h, modelFault_withHidden]
  obtain ⟨f, hf, rfl⟩ | ⟨hf, rfl⟩ := exec_next_cases ht
  · refine ⟨_, exec_of_fault (hfault.trans hf), ?_⟩
    have hpc : s'.pc = s.pc := by rw [eq_withHidden h]; rfl
    rw [State.rewindPc, State.rewindPc, hpc]
    exact recordFault_sameToPrograms _ (setPc_sameToPrograms _ h)
  · refine ⟨_, exec_of_noFault (hfault.trans hf), ?_⟩
    rw [eq_withHidden h]
    exact effect_sameToPrograms hf (liveStackAgrees h)

/-- Settles O20: fetch and fault check read no hidden element, and `exec` keeps the relation (`exec_sameToPrograms`). -/
theorem hiddenStateIsNotObservable : Obligations.HiddenStateIsNotObservable := by
  intro s s' t h ht
  have hpc : s'.pc = s.pc := by rw [eq_withHidden h]; rfl
  have hword : s'.fetchWord = s.fetchWord := by rw [eq_withHidden h]; rfl
  have hfault : s'.fault = s.fault := by rw [eq_withHidden h]; rfl
  cases hf : s.fault with
  | some f =>
    rw [blockStep_of_faulted hf] at ht
    cases ht
    exact ⟨s', blockStep_of_faulted (hfault.trans hf), h⟩
  | none =>
    by_cases hfetch : s.pc.toNat ≤ 0xFFE
    · rw [blockStep_of_fetchable hf hfetch] at ht
      rw [blockStep_of_fetchable (hfault.trans hf) (hpc ▸ hfetch), hword]
      refine exec_sameToPrograms ?_ ht
      rw [State.advancePc, State.advancePc, hpc]
      exact setPc_sameToPrograms _ h
    · rw [blockStep_of_unfetchable hf hfetch] at ht
      cases ht
      refine ⟨_, blockStep_of_unfetchable (hfault.trans hf) (hpc ▸ hfetch), ?_⟩
      rw [State.raiseFetchFault, State.raiseFetchFault, hpc]
      exact recordFault_sameToPrograms _ h

/-! ### Encoding a decoded word -/

/-- nnn is x and nn together (R73). -/
theorem fieldNNN_eq_append (w : Word) : fieldNNN w = fieldX w ++ fieldNN w := by
  apply BitVec.eq_of_getLsbD_eq
  intro k hk
  simp only [fieldNNN, fieldX, fieldNN, BitVec.getLsbD_extractLsb', BitVec.getLsbD_append]
  split_ifs <;> grind

theorem encode_decodeFamily0 (x : Nibble) (nn : Byte) :
    encode (decodeFamily0 x nn (x ++ nn)) = wordXNN 0x0 x nn := by
  unfold decodeFamily0
  split_ifs with hcls hret
  · rw [hcls, encode]
  · rw [hret, encode]
  · exact wordNNN_append _ _ _

theorem encode_decodeFamily8 (x y : RegIdx) (n : Nibble) :
    encode (decodeFamily8 x y n) = wordXYN 0x8 (bitsOf x) (bitsOf y) n := by
  obtain ⟨k, rfl⟩ : ∃ k : Fin 16, n = BitVec.ofFin k := ⟨n.toFin, rfl⟩
  fin_cases k <;> rfl

theorem encode_decodeFamilyE (x : RegIdx) (nn : Byte) :
    encode (decodeFamilyE x nn) = wordXNN 0xE (bitsOf x) nn := by
  unfold decodeFamilyE
  split_ifs <;> subst_vars <;> rfl

theorem encode_decodeFamilyF (x : RegIdx) (nn : Byte) :
    encode (decodeFamilyF x nn) = wordXNN 0xF (bitsOf x) nn := by
  unfold decodeFamilyF
  split_ifs <;> subst_vars <;> rfl

/-- Dispatch keeps the word that the fields come from. -/
theorem encode_decodeFields {f x y n : Nibble} {nn : Byte} {w : Word} (hXYN : wordXYN f x y n = w)
    (hXNN : wordXNN f x nn = w) : encode (decodeFields f x y n nn (x ++ nn)) = w := by
  have hNNN : wordNNN f (x ++ nn) = w := (wordNNN_append f x nn).trans hXNN
  obtain ⟨k, rfl⟩ : ∃ k : Fin 16, f = BitVec.ofFin k := ⟨f.toFin, rfl⟩
  fin_cases k
  · exact (encode_decodeFamily0 x nn).trans hXNN
  · exact hNNN
  · exact hNNN
  · exact hXNN
  · exact hXNN
  · exact hXYN
  · exact hXNN
  · exact hXNN
  · exact (encode_decodeFamily8 _ _ n).trans hXYN
  · exact hXYN
  · exact hNNN
  · exact hNNN
  · exact hXNN
  · exact hXYN
  · exact (encode_decodeFamilyE _ nn).trans hXNN
  · exact (encode_decodeFamilyF _ nn).trans hXNN

/-- Encoding gives a decoded word back: no bit is lost (R74). -/
theorem encode_decodeWord (w : Word) : encode (decodeWord w) = w := by
  rw [decodeWord_eq, fieldNNN_eq_append]
  exact encode_decodeFields (wordXYN_fields w) (wordXNN_fields w)

/-! ### The fault record -/

/-- A guarded entry of the table of faults has the kind it names. -/
theorem kind_of_guarded {c : Prop} [Decidable c] {k bad : FaultKind} {n : Nat} {f : FaultKind × Nat} (hk : k ≠ bad)
    (h : (if c then some (k, n) else none) = some f) : f.1 ≠ bad := by
  split at h
  · cases h
    exact hk
  · cases h

/-- No instruction raises the fetch's own fault (R56, R241). -/
theorem modelFault_kind {i : Instr} {s : State} {f : FaultKind × Nat} (h : modelFault i s = some f) :
    f.1 ≠ .FetchOutOfRange := by
  cases i with
  | call nnn => exact kind_of_guarded (by decide) h
  | ret pad => exact kind_of_guarded (by decide) h
  | skp x => exact kind_of_guarded (by decide) h
  | sknp x => exact kind_of_guarded (by decide) h
  | drw x y n => exact kind_of_guarded (by decide) h
  | ldB x => exact kind_of_guarded (by decide) h
  | store x => exact kind_of_guarded (by decide) h
  | load x => exact kind_of_guarded (by decide) h
  | _ => cases h

theorem faultRecordCurrent_of_safe {s : State} (h : s.fault = none) : s.FaultRecordCurrent := by
  intro f hf
  rw [h] at hf
  cases hf

/-- The invariant reads the fault register, pc and memory alone. -/
theorem faultRecordCurrent_congr {s t : State} (hfault : t.fault = s.fault) (hpc : t.pc = s.pc) (hmem : t.mem = s.mem)
    (h : s.FaultRecordCurrent) : t.FaultRecordCurrent := by
  intro f hf
  have hword : t.fetchWord = s.fetchWord := by simp [State.fetchWord, State.readByte, hpc, hmem]
  rw [hpc, hword]
  exact h f (hfault ▸ hf)

/-- A signal leaves what the invariant reads as it was, or it is a reset, which clears the fault. -/
theorem handleSignal_faultRecordCurrent {s : State} (g : Signal) (h : s.FaultRecordCurrent) :
    (handleSignal s g).FaultRecordCurrent := by
  unfold handleSignal
  split
  · exact h
  · exact faultRecordCurrent_congr (s := s) rfl rfl rfl h
  · exact faultRecordCurrent_congr (s := s) rfl rfl rfl h
  · exact faultRecordCurrent_congr (s := s) rfl rfl rfl h
  · exact faultRecordCurrent_of_safe rfl

theorem handleSignals_faultRecordCurrent {s : State} (gs : List Signal) (h : s.FaultRecordCurrent) :
    (handleSignals s gs).FaultRecordCurrent := by
  induction gs generalizing s with
  | nil => exact h
  | cons g gs ih => exact ih (handleSignal_faultRecordCurrent g h)

theorem applyPoll_faultRecordCurrent {s : State} (p : Poll) (h : s.FaultRecordCurrent) :
    (applyPoll s p).FaultRecordCurrent := by
  rw [applyPoll, setKeys_frame]
  exact handleSignals_faultRecordCurrent _ (faultRecordCurrent_congr (s := s) rfl rfl rfl h)

theorem pollInput_faultRecordCurrent {s : State} (h : s.FaultRecordCurrent) : (pollInput s).FaultRecordCurrent := by
  unfold pollInput
  split
  · exact faultRecordCurrent_congr (s := s) rfl rfl rfl h
  · rename_i p rest _
    have hpoll : (applyPoll { s with inbox := rest } p).FaultRecordCurrent :=
      applyPoll_faultRecordCurrent p (faultRecordCurrent_congr (s := s) rfl rfl rfl h)
    exact faultRecordCurrent_congr rfl rfl rfl hpoll

/-- The end of a slice keeps the invariant: tick and presentation write nothing it reads. -/
theorem endSlice_faultRecordCurrent {s : State} (h : s.FaultRecordCurrent) : (endSlice s).FaultRecordCurrent :=
  pollInput_faultRecordCurrent (faultRecordCurrent_congr (s := s) (by simp) (by simp) (by simp) h)

/-- The record of the fault that the instruction at pc raises is that of the instruction at pc. -/
theorem recordFault_faultRecordCurrent {s : State} {f : FaultKind × Nat} (hs : s.fault = none)
    (hpc : s.pc.toNat ≤ 0xFFE) (hf : modelFault (decodeWord s.fetchWord) s.advancePc = some f) :
    (s.advancePc.rewindPc.recordFault
      ⟨f.1, s.advancePc.pc - 2, encode (decodeWord s.fetchWord), f.2⟩).FaultRecordCurrent := by
  have hback : s.advancePc.rewindPc = s := by
    simp [State.advancePc, State.rewindPc, State.setPc]
  have haddr : s.advancePc.pc - 2 = s.pc := by simp
  rw [hback, haddr, encode_decodeWord]
  intro r hr
  simp only [recordFault_fault, hs, Option.getD_none, Option.some.injEq] at hr
  subst hr
  have hword : ∀ r, (s.recordFault r).fetchWord = s.fetchWord := fun r => by
    simp [State.fetchWord, State.readByte]
  rw [recordFault_pc, hword]
  exact ⟨rfl, fun hfetch => absurd hfetch (modelFault_kind hf), fun _ => ⟨hpc, rfl⟩⟩

/-- The fetch's own fault is recorded with pc and opcode 0 (R56, R242). -/
theorem raiseFetchFault_faultRecordCurrent {s : State} (hs : s.fault = none) (hpc : ¬ s.pc.toNat ≤ 0xFFE) :
    s.raiseFetchFault.FaultRecordCurrent := by
  intro r hr
  simp only [State.raiseFetchFault, recordFault_fault, hs, Option.getD_none, Option.some.injEq] at hr
  subst hr
  rw [State.raiseFetchFault, recordFault_pc]
  exact ⟨rfl, fun _ => ⟨by omega, rfl, rfl⟩, fun hkind => absurd rfl hkind⟩

theorem blockStep_faultRecordCurrent {s t : State} (h : s.FaultRecordCurrent) (ht : blockStep s = .next t) :
    t.FaultRecordCurrent := by
  cases hs : s.fault with
  | some f =>
    rw [blockStep_of_faulted hs] at ht
    cases ht
    exact h
  | none =>
    by_cases hpc : s.pc.toNat ≤ 0xFFE
    · rw [blockStep_of_fetchable hs hpc] at ht
      obtain ⟨f, hf, rfl⟩ | ⟨-, rfl⟩ := exec_next_cases ht
      · exact recordFault_faultRecordCurrent hs hpc hf
      · exact faultRecordCurrent_of_safe (by simp [hs])
    · rw [blockStep_of_unfetchable hs hpc] at ht
      cases ht
      exact raiseFetchFault_faultRecordCurrent hs hpc

/-- Settles O58, for each event of the loop that a step can be. -/
theorem stepKeepsFaultRecordCurrent : Obligations.StepKeepsFaultRecordCurrent := by
  intro s t h ht
  unfold step at ht
  split at ht
  · cases ht
    exact h
  · cases ht
    exact pollInput_faultRecordCurrent h
  · split at ht
    · cases ht
      exact endSlice_faultRecordCurrent h
    · refine blockStep_faultRecordCurrent ?_ ht
      exact faultRecordCurrent_congr (s := s) rfl rfl rfl h
end Sys2Proof.Machine
end

section
/-! PROOFS. Memory and pc (20_memory.md): the stores' bytes and their fetch, the fetch's own fault, and the bound on pc
and the return addresses. Once for all invariants of the machine: a step keeps what the block's `step` event, a reset and
the host's writes keep (`step_keeps`). -/

namespace Sys2Proof.Machine

open Sys2Proof.Spec

/-! ### What a step keeps -/

/-- `t` differs from `s` in nothing but the timers, `tone`, `dirty`, the keypad and the sequencer's own state: what the
events other than a `step` and a reset write. -/
def UpToHostWrites (s t : State) : Prop :=
  t = { s with
    DT := t.DT, ST := t.ST, key := t.key, dirty := t.dirty, tone := t.tone, runState := t.runState,
    stepsLeft := t.stepsLeft, inbox := t.inbox }

theorem tick_upToHostWrites (s : State) : UpToHostWrites s (tick s) := by
  rw [tick_frame]
  exact rfl

section StepInvariant

variable {P : State → Prop} (hhost : ∀ {s t}, UpToHostWrites s t → P s → P t) (hreset : ∀ {s}, P s → P (blockReset s))

include hhost hreset

/-- A signal writes `run_state` alone, or it is a reset that takes effect (R270). -/
theorem handleSignal_keeps {s : State} (g : Signal) (h : P s) : P (handleSignal s g) := by
  unfold handleSignal
  split
  · exact h
  · exact hhost rfl h
  · exact hhost rfl h
  · exact hhost rfl h
  · exact hhost rfl (hreset h)

theorem handleSignals_keeps {s : State} (gs : List Signal) (h : P s) : P (handleSignals s gs) := by
  induction gs generalizing s with
  | nil => exact h
  | cons g gs ih => exact ih (handleSignal_keeps hhost hreset g h)

theorem applyPoll_keeps {s : State} (p : Poll) (h : P s) : P (applyPoll s p) := by
  rw [applyPoll, setKeys_frame]
  exact handleSignals_keeps hhost hreset _ (hhost rfl h)

theorem pollInput_keeps {s : State} (h : P s) : P (pollInput s) := by
  unfold pollInput
  split
  · exact hhost rfl h
  · rename_i p rest _
    have hpoll : P (applyPoll { s with inbox := rest } p) := applyPoll_keeps hhost hreset p (hhost rfl h)
    exact hhost rfl hpoll

theorem endSlice_keeps {s : State} (h : P s) : P (endSlice s) := by
  have htick : P (tick s) := hhost (tick_upToHostWrites s) h
  rw [endSlice, present_eq]
  exact pollInput_keeps hhost hreset (hhost rfl htick)

/-- A step of the machine keeps what the host's writes, a reset and the block's `step` event keep (R271). -/
theorem step_keeps (hblock : ∀ {s t}, P s → blockStep s = .next t → P t) {s t : State} (h : P s)
    (ht : step s = .next t) : P t := by
  unfold step at ht
  split at ht
  · cases ht
    exact h
  · cases ht
    exact pollInput_keeps hhost hreset h
  · split at ht
    · cases ht
      exact endSlice_keeps hhost hreset h
    · rename_i n _
      have hused : P { s with stepsLeft := n } := hhost rfl h
      exact hblock hused ht

end StepInvariant

/-! ### pc and the return addresses -/

/-- Where R25 lets an instruction take pc is at most 0x10FE: a skip adds 2 to the advanced pc, a return takes a saved
address, and a jump reaches 0xFFF + 0xFF (R16, R101, R105). -/
theorem pcAllowed_le {i : Instr} {s t : State} (h : pcAllowed i s t) (hlo : 2 ≤ s.pc.toNat) (hhi : s.pc.toNat ≤ 0x1000)
    (hstack : ∀ k (hk : k < 12), s.stack[k].toNat ≤ 0x1000) : t.pc.toNat ≤ 0x10FE := by
  have hskip : (t.pc = s.pc ∨ t.pc = s.pc + 2) → t.pc.toNat ≤ 0x10FE := by
    rintro (hpc | hpc) <;> rw [hpc]
    · omega
    · bv_omega
  have hjump : ∀ nnn : Addr12, t.pc.toNat = nnn.toNat → t.pc.toNat ≤ 0x10FE := by omega
  have hstay : t.pc = s.pc → t.pc.toNat ≤ 0x10FE := fun hpc => hskip (.inl hpc)
  cases i with
  | seImm x nn => exact hskip h
  | sneImm x nn => exact hskip h
  | seReg x y pad => exact hskip h
  | sneReg x y pad => exact hskip h
  | skp x => exact hskip h
  | sknp x => exact hskip h
  | sys nnn => exact hjump nnn h
  | jp nnn => exact hjump nnn h
  | call nnn => exact hjump nnn h
  | jpV0 nnn =>
    have hsum : t.pc.toNat = nnn.toNat + (s.reg 0).toNat := h
    omega
  | ret pad =>
    obtain ⟨k, hk, -, hpc⟩ := h
    have hentry := hstack k hk
    rw [hpc]
    omega
  | ldVxK x =>
    obtain hpc | hpc := h
    · exact hstay hpc
    · rw [hpc]
      bv_omega
  | _ => exact hstay h

/-- A call saves pc, and no other instruction writes an entry of the stack (R26). -/
theorem effect_stack_le {i : Instr} {s : State} (hpc : s.pc.toNat ≤ 0x1000)
    (hstack : ∀ k (hk : k < 12), s.stack[k].toNat ≤ 0x1000) (k : Nat) (hk : k < 12) :
    (effect i s).stack[k].toNat ≤ 0x1000 := by
  cases i with
  | call nnn =>
    rw [effect_call_stack]
    split
    · exact hpc
    · exact hstack k hk
  | _ =>
    rw [effect_stack s (by simp)]
    exact hstack k hk

theorem pcBounded_congr {s t : State} (hpc : t.pc = s.pc) (hstack : t.stack = s.stack) (h : s.PcBounded) :
    t.PcBounded := by
  rw [State.PcBounded, hpc, hstack]
  exact h

theorem blockReset_pcBounded (s : State) : (blockReset s).PcBounded :=
  ⟨by simp, fun k hk => by simp⟩

/-- The `step` event keeps the bounds: an instruction is fetched from at most 0xFFE (R56), so that pc is at most 0x1000
where the instruction runs. -/
theorem blockStep_pcBounded {s t : State} (h : s.PcBounded) (ht : blockStep s = .next t) : t.PcBounded := by
  cases hs : s.fault with
  | some f =>
    rw [blockStep_of_faulted hs] at ht
    cases ht
    exact h
  | none =>
    by_cases hpc : s.pc.toNat ≤ 0xFFE
    · rw [blockStep_of_fetchable hs hpc] at ht
      obtain ⟨f, -, rfl⟩ | ⟨hf, rfl⟩ := exec_next_cases ht
      · exact pcBounded_congr (by simp) (by simp) h
      · have hadv : s.advancePc.pc.toNat = s.pc.toNat + 2 := by
          rw [advancePc_pc]
          bv_omega
        obtain ⟨-, hstack⟩ := h
        exact ⟨pcAllowed_le (effect_pc _ hf) (by omega) (by omega) hstack, effect_stack_le (by omega) hstack⟩
    · rw [blockStep_of_unfetchable hs hpc] at ht
      cases ht
      exact pcBounded_congr (by simp [State.raiseFetchFault]) (by simp [State.raiseFetchFault]) h

/-- Settles O59: of the events of a step, only the block's `step` event and a reset write pc or the stack. -/
theorem stepKeepsPcBounded : Obligations.StepKeepsPcBounded := by
  intro s t h ht
  refine step_keeps (fun hst hs => ?_) (fun _ => blockReset_pcBounded _) blockStep_pcBounded h ht
  rw [hst]
  exact pcBounded_congr rfl rfl hs

/-! ### The bytes that a store writes -/

/-- A data access raises no fault where it is empty or ends in memory (R57). -/
theorem dataFault_eq_none {s : State} {count : Nat} :
    dataFault s count = none ↔ count = 0 ∨ s.I.toNat + count ≤ 4096 := by
  simp only [dataFault, ite_eq_right_iff, reduceCtorEq, imp_false]
  omega

theorem read_writeBytes_outside {m : Memory} {a c : Nat} {bs : List Byte} (hin : a + bs.length ≤ 4096)
    (hout : c < a ∨ a + bs.length ≤ c) : (m.writeBytes a bs).read c = m.read c := by
  rw [read_writeBytes _ _ _ _ hin, dif_neg (by omega)]

@[simp] theorem length_bcdDigits (v : Byte) : (bcdDigits v).length = 3 := rfl

@[simp] theorem length_regBlock (s : State) (x : RegIdx) : (s.regBlock x).length = x.val + 1 := by
  simp [State.regBlock]

/-- The k-th byte of a register block is V[k] (R185). -/
theorem getElem_regBlock (s : State) (x k : RegIdx) (h : k.val < (s.regBlock x).length) :
    (s.regBlock x)[k.val] = s.reg k := by
  simp [State.regBlock, State.reg]

/-- Every instruction but FX33 and FX55 leaves memory as it was (R50). -/
theorem effect_mem {i : Instr} (s : State) (hldB : ∀ x, i ≠ .ldB x) (hstore : ∀ x, i ≠ .store x) :
    (effect i s).mem = s.mem := by
  cases i with
  | ldB x => exact absurd rfl (hldB x)
  | store x => exact absurd rfl (hstore x)
  | ldVxK x => rw [effect, keyWait_frame]
  | _ => rfl

/-- An effect leaves every byte outside the instruction's stored bytes (R58). -/
theorem effect_readByte {i : Instr} {s : State} {a : Nat} (hf : modelFault i s = none)
    (ha : a < s.I.toNat ∨ s.I.toNat + storedBytes i ≤ a) : (effect i s).readByte a = s.readByte a := by
  cases i with
  | ldB x =>
    have hin := dataFault_eq_none.1 hf
    exact read_writeBytes_outside (by simpa using hin) ha
  | store x =>
    have hin := dataFault_eq_none.1 hf
    exact read_writeBytes_outside (by simpa using hin) (by simpa [storedBytes] using ha)
  | _ => rw [State.readByte, effect_mem s (by simp) (by simp), State.readByte]

/-- Settles O13: a fault writes no memory, and an effect only the instruction's stored bytes. -/
theorem onlyStoresWriteMemory : Obligations.OnlyStoresWriteMemory := by
  intro i s t a h ha
  obtain ⟨f, -, rfl⟩ | ⟨hf, rfl⟩ := exec_next_cases h
  · simp [State.readByte]
  · exact effect_readByte hf ha

/-- A byte that FX55 stores is that of its register (R185). -/
theorem effect_store_readByte {x k : RegIdx} {s : State} (hin : s.I.toNat + x.val ≤ 0xFFF) (hk : k ≤ x) :
    (effect (.store x) s).readByte (s.I.toNat + k.val) = s.reg k := by
  have hkx : k.val ≤ x.val := hk
  have hlen := length_regBlock s x
  calc (effect (.store x) s).readByte (s.I.toNat + k.val)
      = (s.mem.writeBytes s.I.toNat (s.regBlock x)).read (s.I.toNat + k.val) := rfl
    _ = (s.regBlock x)[k.val] := by
        rw [read_writeBytes _ _ _ _ (by omega), dif_pos (by omega)]
        simp
    _ = s.reg k := getElem_regBlock s x k _

/-- Settles O38: the fetch reads the memory that the store has written. -/
theorem storedBytesAreFetched : Obligations.StoredBytesAreFetched := by
  intro x s hin
  have hf : modelFault (.store x) s = none := dataFault_eq_none.2 (.inr (by omega))
  refine ⟨_, exec_of_noFault hf, fun k j p hj hjx hp => ?_⟩
  have hkj : k < j := Fin.lt_def.2 (by omega)
  have hkx : k ≤ x := (hkj.trans_le hjx).le
  have hnext : p.toNat + 1 = s.I.toNat + j.val := by omega
  calc ({ effect (.store x) s with pc := p } : State).fetchWord
      = (effect (.store x) s).readByte p.toNat ++ (effect (.store x) s).readByte (p.toNat + 1) := rfl
    _ = s.reg k ++ s.reg j := by
        rw [hnext, hp, effect_store_readByte hin hkx, effect_store_readByte hin hjx]

/-! ### A fetch beyond memory -/

/-- In a running slice with steps left a step of the machine is the block's `step` event (R271). -/
theorem step_of_running {s : State} {n : Nat} (hrun : s.runState = .Running) (hleft : s.stepsLeft = n + 1) :
    step s = blockStep { s with stepsLeft := n } := by
  rw [step, hrun, hleft]

theorem raiseFetchFault_eq {s : State} (h : s.fault = none) :
    s.raiseFetchFault = { s with fault := some ⟨.FetchOutOfRange, s.pc, 0, s.pc.toNat⟩ } := by
  simp [State.raiseFetchFault, State.recordFault, h]

/-- Settles O8: the fetch's check comes before the advance (R71). -/
theorem fetchBeyondMemoryFaults : Obligations.FetchBeyondMemoryFaults := by
  intro s n hrun hleft hs hpc
  have hfetch : ¬ s.pc.toNat ≤ 0xFFE := by omega
  rw [step_of_running hrun hleft, blockStep_of_unfetchable (s := { s with stepsLeft := n }) hs hfetch,
    raiseFetchFault_eq (s := { s with stepsLeft := n }) hs]

end Sys2Proof.Machine
end

section
/-! PROOFS. The encoding (30_encoding.md): the fields' identities, the form of decoded instructions, the opcode map
against the dispatch, the UNDEF words, and the step that runs a decoded instruction. -/

namespace Sys2Proof.Machine

/-! ### The fields' identities -/

section FieldValues

variable (w : Word)

theorem toNat_family : (family w).toNat = w.toNat / 4096 := by
  rw [family, BitVec.extractLsb'_toNat, Nat.shiftRight_eq_div_pow]
  omega

theorem toNat_fieldX : (fieldX w).toNat = w.toNat / 256 % 16 := by
  rw [fieldX, BitVec.extractLsb'_toNat, Nat.shiftRight_eq_div_pow]

theorem toNat_fieldY : (fieldY w).toNat = w.toNat / 16 % 16 := by
  rw [fieldY, BitVec.extractLsb'_toNat, Nat.shiftRight_eq_div_pow]

theorem toNat_fieldN : (fieldN w).toNat = w.toNat % 16 := by
  rw [fieldN, BitVec.extractLsb'_toNat, Nat.shiftRight_zero]

theorem toNat_fieldNN : (fieldNN w).toNat = w.toNat % 256 := by
  rw [fieldNN, BitVec.extractLsb'_toNat, Nat.shiftRight_zero]

theorem toNat_fieldNNN : (fieldNNN w).toNat = w.toNat % 4096 := by
  rw [fieldNNN, BitVec.extractLsb'_toNat, Nat.shiftRight_zero]

end FieldValues

/-- Settles O4: each field is a quotient and a remainder of the word. -/
theorem fieldsRecombine : Obligations.FieldsRecombine := by
  intro w
  have hF (a : Nat) : a &&& 0xF = a % 16 := Nat.and_two_pow_sub_one_eq_mod a 4
  have hFF (a : Nat) : a &&& 0xFF = a % 256 := Nat.and_two_pow_sub_one_eq_mod a 8
  have hFFF (a : Nat) : a &&& 0xFFF = a % 4096 := Nat.and_two_pow_sub_one_eq_mod a 12
  rw [toNat_family, toNat_fieldX, toNat_fieldY, toNat_fieldN, toNat_fieldNN, toNat_fieldNNN, hF, hF, hF, hFF, hFFF]
  simp only [Nat.shiftRight_eq_div_pow, true_and]
  omega

/-! ### Decoded instructions are well-formed -/

theorem decodeFamily0_wf {x : Nibble} {nn : Byte} {nnn : Addr12} (hnn : nnn.setWidth 8 = nn) :
    (decodeFamily0 x nn nnn).wf = true := by
  unfold decodeFamily0
  split_ifs with hcls hret
  · rfl
  · rfl
  · simpa [Instr.wf, definedZero, hnn] using And.intro hcls hret

theorem decodeFamily8_wf (x y : RegIdx) (n : Nibble) : (decodeFamily8 x y n).wf = true := by
  unfold decodeFamily8
  split <;> rfl

theorem decodeFamilyE_wf (x : RegIdx) (nn : Byte) : (decodeFamilyE x nn).wf = true := by
  unfold decodeFamilyE
  split_ifs with hskp hsknp
  · rfl
  · rfl
  · simpa [Instr.wf, definedE] using And.intro hskp hsknp

/-- UNDEF is reached past the tests for all of the family's other low bytes (R79). -/
theorem decodeFamilyF_wf (x : RegIdx) (nn : Byte) : (decodeFamilyF x nn).wf = true := by
  unfold decodeFamilyF
  split_ifs
  case neg => simp_all [Instr.wf, definedF]
  all_goals rfl

/-- Only families 0x0, 0x8, 0xE and 0xF dispatch further (R75). -/
theorem decodeFields_wf {f x y n : Nibble} {nn : Byte} {nnn : Addr12} (hnn : nnn.setWidth 8 = nn) :
    (decodeFields f x y n nn nnn).wf = true := by
  unfold decodeFields
  split
  case h_1 => exact decodeFamily0_wf hnn
  case h_9 => exact decodeFamily8_wf _ _ n
  case h_15 => exact decodeFamilyE_wf _ nn
  case h_16 => exact decodeFamilyF_wf _ nn
  all_goals rfl

/-- Settles O2: the dispatch reaches a lower row only past the higher ones, and keeps every bit
(`encode_decodeWord`). -/
theorem everyWordDecodesAndEncodesBack : Obligations.EveryWordDecodesAndEncodesBack :=
  fun w => ⟨decodeFields_wf (fieldNNN_setWidth w), encode_decodeWord w⟩

/-! ### The opcode map -/

theorem eq_iff_fieldsXNN (w v : Word) :
    w = v ↔ family w = family v ∧ fieldX w = fieldX v ∧ fieldNN w = fieldNN v := by
  constructor
  · rintro rfl
    exact ⟨rfl, rfl, rfl⟩
  · rintro ⟨hf, hx, hnn⟩
    rw [← wordXNN_fields w, hf, hx, hnn, wordXNN_fields]

theorem eq_iff_fieldsXYN (w v : Word) :
    w = v ↔ family w = family v ∧ fieldX w = fieldX v ∧ fieldY w = fieldY v ∧ fieldN w = fieldN v := by
  constructor
  · rintro rfl
    exact ⟨rfl, rfl, rfl, rfl⟩
  · rintro ⟨hf, hx, hy, hn⟩
    rw [← wordXYN_fields w, hf, hx, hy, hn, wordXYN_fields]

section Fields

variable (a b : Word)

@[simp] theorem family_and : family (a &&& b) = family a &&& family b := BitVec.extractLsb'_and
@[simp] theorem fieldX_and : fieldX (a &&& b) = fieldX a &&& fieldX b := BitVec.extractLsb'_and
@[simp] theorem fieldY_and : fieldY (a &&& b) = fieldY a &&& fieldY b := BitVec.extractLsb'_and
@[simp] theorem fieldN_and : fieldN (a &&& b) = fieldN a &&& fieldN b := BitVec.extractLsb'_and
@[simp] theorem fieldNN_and : fieldNN (a &&& b) = fieldNN a &&& fieldNN b := BitVec.extractLsb'_and

end Fields

@[simp] theorem nibble_and_F (b : Nibble) : b &&& 0xF#4 = b := BitVec.and_allOnes
@[simp] theorem byte_and_FF (b : Byte) : b &&& 0xFF#8 = b := BitVec.and_allOnes

/-- A line that selects on the family alone. -/
def familyLine (f : Nibble) (op : Op) : OpRow := ⟨wordXNN 0xF 0 0, wordXNN f 0 0, op⟩

/-- A line that selects on the family and nn. -/
def nnLine (f : Nibble) (nn : Byte) (op : Op) : OpRow := ⟨wordXNN 0xF 0 0xFF, wordXNN f 0 nn, op⟩

/-- A line that selects on the family and n. -/
def nLine (f n : Nibble) (op : Op) : OpRow := ⟨wordXYN 0xF 0 0 0xF, wordXYN f 0 0 n, op⟩

theorem covers_familyLine (f : Nibble) (op : Op) (w : Word) : (familyLine f op).covers w = true ↔ family w = f := by
  rw [OpRow.covers, beq_iff_eq, familyLine, eq_iff_fieldsXNN]
  simp

theorem covers_nnLine (f : Nibble) (nn : Byte) (op : Op) (w : Word) :
    (nnLine f nn op).covers w = true ↔ family w = f ∧ fieldNN w = nn := by
  rw [OpRow.covers, beq_iff_eq, nnLine, eq_iff_fieldsXNN]
  simp

theorem covers_nLine (f n : Nibble) (op : Op) (w : Word) :
    (nLine f n op).covers w = true ↔ family w = f ∧ fieldN w = n := by
  rw [OpRow.covers, beq_iff_eq, nLine, eq_iff_fieldsXYN]
  simp

/-- The lines of a family. -/
def linesOf (f : Nibble) : List OpRow := opRows.filter fun r => family r.value == f

/-- Every line selects on all bits of the family. -/
theorem family_value_of_covers {r : OpRow} {w : Word} (hr : r ∈ opRows) (hw : r.covers w = true) :
    family r.value = family w := by
  have hmask : ∀ r ∈ opRows, family r.mask = 0xF#4 := by decide
  rw [← eq_of_beq hw, family_and, hmask r hr, nibble_and_F]

/-- Only the lines of a word's family can match it. -/
theorem mapOp_eq_find_linesOf (w : Word) : mapOp w = ((linesOf (family w)).find? (·.covers w)).map (·.op) := by
  have hfind : opRows.find? (·.covers w) = (linesOf (family w)).find? (·.covers w) := by
    rw [linesOf, List.find?_filter]
    refine List.find?_congr fun r hr => ?_
    cases hw : r.covers w with
    | false => simp
    | true => simp [family_value_of_covers hr hw]
  rw [mapOp, hfind]

section FirstMatch

variable {w : Word} {f : Nibble}

/-- The operation of the first matching line, line by line. -/
theorem firstOp_cons (r : OpRow) (rs : List OpRow) : ((r :: rs).find? (·.covers w)).map (·.op) =
    if r.covers w then some r.op else (rs.find? (·.covers w)).map (·.op) := by
  cases hr : r.covers w <;> simp [hr]

variable (h : family w = f)

include h

theorem firstOp_familyLine (op : Op) (rs : List OpRow) :
    ((familyLine f op :: rs).find? (·.covers w)).map (·.op) = some op := by
  rw [firstOp_cons, if_pos ((covers_familyLine f op w).2 h)]
  rfl

theorem firstOp_nnLine (nn : Byte) (op : Op) (rs : List OpRow) :
    ((nnLine f nn op :: rs).find? (·.covers w)).map (·.op) =
      if fieldNN w = nn then some op else (rs.find? (·.covers w)).map (·.op) := by
  simp only [firstOp_cons, covers_nnLine, h, true_and]
  rfl

theorem firstOp_nLine (n : Nibble) (op : Op) (rs : List OpRow) :
    ((nLine f n op :: rs).find? (·.covers w)).map (·.op) =
      if fieldN w = n then some op else (rs.find? (·.covers w)).map (·.op) := by
  simp only [firstOp_cons, covers_nLine, h, true_and]
  rfl

theorem mapOp_of_single {op : Op} (hlines : linesOf f = [familyLine f op]) : mapOp w = some op := by
  rw [mapOp_eq_find_linesOf, h, hlines, firstOp_familyLine h]

end FirstMatch

/-- The lines of family 0x0, tried in order, are the dispatch's chain of tests on nn (R76). -/
theorem mapOp_family0 {w : Word} (h : family w = 0x0) (x : Nibble) (nnn : Addr12) :
    mapOp w = some (decodeFamily0 x (fieldNN w) nnn).op := by
  have hlines : linesOf 0x0 = [nnLine 0x0 0xE0 .CLS, nnLine 0x0 0xEE .RET, familyLine 0x0 .SYS] := by decide
  simp only [mapOp_eq_find_linesOf, h, hlines, firstOp_nnLine h, firstOp_familyLine h, decodeFamily0]
  split_ifs <;> rfl

/-- For each n one line of family 0x8 is the first that matches (R77). -/
theorem mapOp_family8 {w : Word} (h : family w = 0x8) (x y : RegIdx) :
    mapOp w = some (decodeFamily8 x y (fieldN w)).op := by
  have hlines : linesOf 0x8 =
      [nLine 0x8 0x0 .LD_VX_VY, nLine 0x8 0x1 .OR, nLine 0x8 0x2 .AND, nLine 0x8 0x3 .XOR, nLine 0x8 0x4 .ADD_VX_VY,
       nLine 0x8 0x5 .SUB, nLine 0x8 0x6 .SHR, nLine 0x8 0x7 .SUBN, nLine 0x8 0xE .SHL, familyLine 0x8 .UNDEF] := by
    decide
  simp only [mapOp_eq_find_linesOf, h, hlines, firstOp_nLine h, firstOp_familyLine h]
  obtain ⟨k, hk⟩ : ∃ k : Fin 16, fieldN w = BitVec.ofFin k := ⟨(fieldN w).toFin, rfl⟩
  rw [hk]
  fin_cases k <;> rfl

/-- The lines of family 0xE, tried in order, are the dispatch's chain of tests on nn (R78). -/
theorem mapOp_familyE {w : Word} (h : family w = 0xE) (x : RegIdx) :
    mapOp w = some (decodeFamilyE x (fieldNN w)).op := by
  have hlines : linesOf 0xE = [nnLine 0xE 0x9E .SKP, nnLine 0xE 0xA1 .SKNP, familyLine 0xE .UNDEF] := by decide
  simp only [mapOp_eq_find_linesOf, h, hlines, firstOp_nnLine h, firstOp_familyLine h, decodeFamilyE]
  split_ifs <;> rfl

/-- The lines of family 0xF, tried in order, are the dispatch's chain of tests on nn (R79). -/
theorem mapOp_familyF {w : Word} (h : family w = 0xF) (x : RegIdx) :
    mapOp w = some (decodeFamilyF x (fieldNN w)).op := by
  have hlines : linesOf 0xF =
      [nnLine 0xF 0x07 .LD_VX_DT, nnLine 0xF 0x0A .LD_VX_K, nnLine 0xF 0x15 .LD_DT_VX, nnLine 0xF 0x18 .LD_ST_VX,
       nnLine 0xF 0x1E .ADD_I_VX, nnLine 0xF 0x29 .LD_F_VX, nnLine 0xF 0x33 .LD_B_VX, nnLine 0xF 0x55 .LD_MEM_VX,
       nnLine 0xF 0x65 .LD_VX_MEM, familyLine 0xF .UNDEF] := by decide
  simp only [mapOp_eq_find_linesOf, h, hlines, firstOp_nnLine h, firstOp_familyLine h, decodeFamilyF]
  split_ifs <;> rfl

/-- Settles O3: four families dispatch further, and each other one has one line. -/
theorem opcodeMapFirstMatch : Obligations.OpcodeMapFirstMatch := by
  intro w
  obtain ⟨k, hk⟩ : ∃ k : Fin 16, family w = BitVec.ofFin k := ⟨(family w).toFin, rfl⟩
  rw [decodeWord_eq, hk]
  fin_cases k
  · exact mapOp_family0 hk _ _
  · exact mapOp_of_single hk rfl
  · exact mapOp_of_single hk rfl
  · exact mapOp_of_single hk rfl
  · exact mapOp_of_single hk rfl
  · exact mapOp_of_single hk rfl
  · exact mapOp_of_single hk rfl
  · exact mapOp_of_single hk rfl
  · exact mapOp_family8 hk _ _
  · exact mapOp_of_single hk rfl
  · exact mapOp_of_single hk rfl
  · exact mapOp_of_single hk rfl
  · exact mapOp_of_single hk rfl
  · exact mapOp_of_single hk rfl
  · exact mapOp_familyE hk _
  · exact mapOp_familyF hk _

/-! ### UNDEF -/

theorem decodeFamily0_op_ne (x : Nibble) (nn : Byte) (nnn : Addr12) : (decodeFamily0 x nn nnn).op ≠ .UNDEF := by
  unfold decodeFamily0
  split_ifs <;> simp [Instr.op]

theorem decodeFamily8_op_eq_undef (x y : RegIdx) (n : Nibble) :
    (decodeFamily8 x y n).op = .UNDEF ↔ n ∈ [0x8, 0x9, 0xA, 0xB, 0xC, 0xD, 0xF] := by
  obtain ⟨k, rfl⟩ : ∃ k : Fin 16, n = BitVec.ofFin k := ⟨n.toFin, rfl⟩
  fin_cases k <;> simp [decodeFamily8, Instr.op]

theorem decodeFamilyE_op_eq_undef (x : RegIdx) (nn : Byte) :
    (decodeFamilyE x nn).op = .UNDEF ↔ nn ∉ definedE := by
  unfold decodeFamilyE
  split_ifs <;> simp_all [Instr.op, definedE]

theorem decodeFamilyF_op_eq_undef (x : RegIdx) (nn : Byte) :
    (decodeFamilyF x nn).op = .UNDEF ↔ nn ∉ definedF := by
  unfold decodeFamilyF
  split_ifs <;> simp_all [Instr.op, definedF]

/-- Of the other families none has an UNDEF word. -/
theorem decodeFields_op_eq_undef (f x y n : Nibble) (nn : Byte) (nnn : Addr12) :
    (decodeFields f x y n nn nnn).op = .UNDEF ↔
      (f = 0x8 ∧ n ∈ [0x8, 0x9, 0xA, 0xB, 0xC, 0xD, 0xF]) ∨ (f = 0xE ∧ nn ∉ definedE) ∨
        (f = 0xF ∧ nn ∉ definedF) := by
  obtain ⟨k, rfl⟩ : ∃ k : Fin 16, f = BitVec.ofFin k := ⟨f.toFin, rfl⟩
  fin_cases k
  · simpa [decodeFields] using decodeFamily0_op_ne x nn nnn
  · simp [decodeFields, Instr.op]
  · simp [decodeFields, Instr.op]
  · simp [decodeFields, Instr.op]
  · simp [decodeFields, Instr.op]
  · simp [decodeFields, Instr.op]
  · simp [decodeFields, Instr.op]
  · simp [decodeFields, Instr.op]
  · simpa [decodeFields] using decodeFamily8_op_eq_undef _ _ n
  · simp [decodeFields, Instr.op]
  · simp [decodeFields, Instr.op]
  · simp [decodeFields, Instr.op]
  · simp [decodeFields, Instr.op]
  · simp [decodeFields, Instr.op]
  · simpa [decodeFields] using decodeFamilyE_op_eq_undef _ nn
  · simpa [decodeFields] using decodeFamilyF_op_eq_undef _ nn

/-- Every UNDEF instruction answers the state it is given (R82). -/
theorem exec_of_undef {i : Instr} (s : State) (h : i.op = .UNDEF) : exec i s = .next s := by
  cases i
  case undef8XY8 | undef8XY9 | undef8XYA | undef8XYB | undef8XYC | undef8XYD | undef8XYF | undefE | undefF => rfl
  all_goals cases h

/-- Settles O45: a step on an UNDEF word is the advance alone. -/
theorem undefIsNoOp : Obligations.UndefIsNoOp := by
  refine ⟨fun w => decodeFields_op_eq_undef .., fun _ => exec_of_undef, fun s hs hpc h => ?_⟩
  rw [blockStep_of_fetchable hs hpc, exec_of_undef _ h]
  rfl

/-! ### The step -/

/-- Settles O6: the bytes at pc are the fetched word (R54). -/
theorem stepRunsDecodedInstruction : Obligations.StepRunsDecodedInstruction := by
  intro s n i hrun hleft hs hpc hdecode
  have hi : decodeWord s.fetchWord = i := by
    simpa [decode, State.fetchWord] using hdecode
  rw [step_of_running hrun hleft, blockStep_of_fetchable (s := { s with stepsLeft := n }) hs hpc, ← hi]
  rfl

end Sys2Proof.Machine
end

section
/-! PROOFS. Control transfer (40_control.md): jumps, calls and returns, each as the effect it has where the table of
faults R241 has none for it (`exec_of_noFault`), and the faults of a full and an empty stack. -/

namespace Sys2Proof.Machine

open Sys2Proof.Spec

/-- An instruction for which R241's table has a fault records it and undoes the advance (R242, R243). -/
theorem exec_eq_faulted {i : Instr} {s : State} {kind : FaultKind} {info : Nat} (hs : s.fault = none)
    (hf : modelFault i s = some (kind, info)) : exec i s = .next (faulted i kind info s) :=
  (exec_of_fault hf).trans (raiseFault_eq i kind info s hs)

/-! ### Calls and returns -/

theorem modelFault_call_of_room {s : State} (nnn : Addr12) (h : s.sp.val < 12) : modelFault (.call nnn) s = none :=
  if_neg (by omega)

theorem modelFault_call_of_full {s : State} (nnn : Addr12) (h : s.sp.val = 12) :
    modelFault (.call nnn) s = some (.StackOverflow, 12) :=
  if_pos h

theorem modelFault_ret_of_entry {s : State} {k : Nat} (x : Nibble) (h : s.sp.val = k + 1) :
    modelFault (.ret x) s = none :=
  if_neg (by omega)

theorem modelFault_ret_of_empty {s : State} (x : Nibble) (h : s.sp.val = 0) :
    modelFault (.ret x) s = some (.StackUnderflow, 0) :=
  if_pos h

theorem effect_call_sp {s : State} (nnn : Addr12) (h : s.sp.val < 12) :
    (effect (.call nnn) s).sp.val = s.sp.val + 1 :=
  Nat.mod_eq_of_lt (by omega)

theorem effect_ret_sp {s : State} {k : Nat} (x : Nibble) (h : s.sp.val = k + 1) : (effect (.ret x) s).sp.val = k := by
  simp [effect, h]

theorem effect_ret_pc {s : State} {k : Nat} (x : Nibble) (hk : k < 12) (h : s.sp.val = k + 1) :
    (effect (.ret x) s).pc = s.stack[k] := by
  simp [effect, h]

/-- A return writes pc and sp alone: the popped entry is not cleared (R27). -/
theorem effect_ret_frame (x : Nibble) (s : State) :
    effect (.ret x) s = { s with pc := (effect (.ret x) s).pc, sp := (effect (.ret x) s).sp } := rfl

/-- A 13th call faults (R104, R106). -/
theorem exec_call_of_full {s : State} (nnn : Addr12) (hs : s.fault = none) (h : s.sp.val = 12) :
    exec (.call nnn) s = .next (faulted (.call nnn) .StackOverflow 12 s) :=
  exec_eq_faulted hs (modelFault_call_of_full nnn h)

/-- Settles O25: the call leaves pc in the entry at sp, and the return loads that entry. -/
theorem callThenReturnBalances : Obligations.CallThenReturnBalances := by
  refine ⟨fun nnn x s h => ⟨_, exec_of_noFault (modelFault_call_of_room nnn h), fun u hsp hstack => ?_⟩,
    fun nnn _ => exec_call_of_full nnn⟩
  have hu : u.sp.val = s.sp.val + 1 := hsp ▸ effect_call_sp nnn h
  have hentry : u.stack[s.sp.val] = s.pc := by
    rw [hstack, effect_call_stack, if_pos rfl]
  exact ⟨_, exec_of_noFault (modelFault_ret_of_entry x hu), (effect_ret_pc x h hu).trans hentry,
    Fin.ext (effect_ret_sp x hu), effect_ret_frame x u⟩

/-- Settles O23, from the effect of a call with room (`effect_call_sp`, `effect_call_stack`) and its fault without. -/
theorem callPushesAndJumps : Obligations.CallPushesAndJumps := by
  refine ⟨fun nnn => Laws.RoundTrip.call nnn rfl, fun nnn s h => ?_, fun nnn _ => exec_call_of_full nnn⟩
  refine ⟨_, exec_of_noFault (modelFault_call_of_room nnn h), rfl, toNat_zext16 nnn (by omega), effect_call_sp nnn h,
    ?_, effect_stack_getElem s (.call nnn)⟩
  rw [effect_call_stack, if_pos rfl]

/-- Settles O24, from the effect of a return with an entry in use and its fault without. -/
theorem returnPops : Obligations.ReturnPops :=
  ⟨fun x => Laws.RoundTrip.ret x rfl,
    fun x s _ hk h => ⟨_, exec_of_noFault (modelFault_ret_of_entry x h), effect_ret_frame x s, effect_ret_sp x h,
      effect_ret_pc x hk h⟩,
    fun x _ hs h => exec_eq_faulted hs (modelFault_ret_of_empty x h)⟩

/-! ### Jumps -/

/-- SYS is what the dispatch of family 0x0 is left with past its two tests (R76). -/
theorem decodeWord_sys (x : Nibble) {nn : Byte} (hcls : nn ≠ 0xE0) (hret : nn ≠ 0xEE) :
    decodeWord (wordXNN 0x0 x nn) = .sys (x ++ nn) := by
  rw [decodeWord_eq, fieldNNN_eq_append, family_wordXNN, fieldX_wordXNN, fieldNN_wordXNN]
  exact (if_neg hcls).trans (if_neg hret)

/-- Settles O21: the effect of both instructions is one write of pc. -/
theorem sysAndJumpLoadPc : Obligations.SysAndJumpLoadPc := by
  refine ⟨fun x nn => decodeWord_sys x, fun nnn => Laws.RoundTrip.jp nnn rfl, ?_⟩
  rintro i nnn s (rfl | rfl)
  · exact ⟨_, exec_of_noFault rfl, rfl, toNat_zext16 nnn (by omega)⟩
  · exact ⟨_, exec_of_noFault rfl, rfl, toNat_zext16 nnn (by omega)⟩

/-- Settles O22: the sum does not wrap (`effect_jpV0_pc`), so that beyond 0xFFE the next fetch sees it out of range. -/
theorem jumpWithOffset : Obligations.JumpWithOffset := by
  refine ⟨fun nnn => Laws.RoundTrip.jpV0 nnn rfl, fun nnn s => ?_⟩
  refine ⟨_, exec_of_noFault rfl, rfl, effect_jpV0_pc s nnn, fun hs hpc => ?_⟩
  have ht : (effect (.jpV0 nnn) s).fault = none := (effect_fault s _).trans hs
  rw [blockStep_of_unfetchable ht (by omega), raiseFetchFault_eq ht]

end Sys2Proof.Machine
end

section
/-! PROOFS. Conditional skips (41_skip.md): each skip's effect writes pc alone, by its condition; the two skips on a key
raise their fault for an index above 0xF. -/

namespace Sys2Proof.Machine

open Sys2Proof.Spec

/-- A skip whose test is a comparison: pc takes 2 more exactly where the comparison holds, and nothing else changes (R16,
R40). -/
theorem skip_eq_of_iff {c : Bool} {p : Prop} [Decidable p] (s : State) (h : c = true ↔ p) :
    s.skip c = { s with pc := if p then s.pc + 2 else s.pc } := by
  simp only [State.skip, State.setPc, h]

/-- An instruction that R241's table has no fault for, and whose effect is a skip. -/
theorem exec_eq_skip {i : Instr} {s : State} {c : Bool} {p : Prop} [Decidable p] (hf : modelFault i s = none)
    (he : effect i s = s.skip c) (h : c = true ↔ p) :
    exec i s = .next { s with pc := if p then s.pc + 2 else s.pc } := by
  rw [exec_of_noFault hf, he, skip_eq_of_iff s h]

/-- Settles O26: the effect of each of the four is a skip, and none of them has a fault. -/
theorem skipsOnComparison : Obligations.SkipsOnComparison :=
  ⟨fun x nn => Laws.RoundTrip.seImm (regOf x) nn rfl, fun x nn => Laws.RoundTrip.sneImm (regOf x) nn rfl,
    fun x y n => Laws.RoundTrip.seReg (regOf x) (regOf y) n rfl,
    fun x y n => Laws.RoundTrip.sneReg (regOf x) (regOf y) n rfl,
    fun _ _ _ _ _ => ⟨exec_eq_skip rfl rfl beq_iff_eq, exec_eq_skip rfl rfl bne_iff_ne,
      exec_eq_skip rfl rfl beq_iff_eq, exec_eq_skip rfl rfl bne_iff_ne⟩⟩

/-! ### The key that V[x] names -/

section NamedKey

variable {s : State} {x : RegIdx}

theorem namedKeyDown_eq {k : KeyIdx} (h : (s.reg x).toNat = k.val) : s.namedKeyDown x = s.keyDown k := by
  rw [State.namedKeyDown, h, Fin.ofNat_val_eq_self]

/-- A register that holds a key's number is no key index out of range (R124, R125). -/
theorem keyIndexFault_of_key {k : KeyIdx} (h : (s.reg x).toNat = k.val) :
    modelFault (.skp x) s = none ∧ modelFault (.sknp x) s = none :=
  have hle : ¬ 0xF < (s.reg x).toNat := by omega
  ⟨if_neg hle, if_neg hle⟩

theorem keyIndexFault_of_large (h : 0xF < (s.reg x).toNat) :
    modelFault (.skp x) s = some (.KeyIndexOutOfRange, (s.reg x).toNat) ∧
      modelFault (.sknp x) s = some (.KeyIndexOutOfRange, (s.reg x).toNat) :=
  ⟨if_pos h, if_pos h⟩

end NamedKey

/-- Settles O27: with V[x] a key's number, the effect is a skip by that key (`namedKeyDown_eq`); above, R241's table has
the fault. -/
theorem skipsOnKey : Obligations.SkipsOnKey := by
  refine ⟨fun x => Laws.RoundTrip.skp (regOf x) rfl, fun x => Laws.RoundTrip.sknp (regOf x) rfl, fun x k s hk => ?_,
    fun x s hs hlarge => ?_⟩
  · obtain ⟨hskp, hsknp⟩ := keyIndexFault_of_key hk
    rw [← namedKeyDown_eq hk]
    exact ⟨exec_eq_skip hskp rfl beq_iff_eq, exec_eq_skip hsknp rfl beq_iff_eq⟩
  · obtain ⟨hskp, hsknp⟩ := keyIndexFault_of_large hlarge
    exact ⟨exec_eq_faulted hs hskp, exec_eq_faulted hs hsknp⟩

end Sys2Proof.Machine
end

section
/-! PROOFS. Register loads and the ALU (42_alu.md). Each value of the ALU once (R131), then what an ALU instruction
writes, by whether its operation defines a flag (R132); no instruction here has a fault. -/

namespace Sys2Proof.Machine

open Sys2Proof.Spec

/-! ### Values of the ALU -/

section AluValues

variable (a b : Byte)

theorem trunc8_toNat : trunc8 a.toNat = a := by
  rw [trunc8, BitVec.ofInt_natCast, BitVec.ofNat_toNat, BitVec.setWidth_eq]

/-- The exact sum, reduced, is the sum modulo 256 (R130). -/
theorem trunc8_add : trunc8 (a.toNat + b.toNat) = a + b :=
  calc trunc8 (a.toNat + b.toNat) = trunc8 a.toNat + trunc8 b.toNat := BitVec.ofInt_add _ _
    _ = a + b := by rw [trunc8_toNat, trunc8_toNat]

/-- The exact difference, reduced, is the difference modulo 256 (R130). -/
theorem trunc8_sub : trunc8 (a.toNat - b.toNat) = a - b := by
  refine eq_sub_of_add_eq ?_
  calc trunc8 (a.toNat - b.toNat) + b = trunc8 (a.toNat - b.toNat) + trunc8 b.toNat := by rw [trunc8_toNat]
    _ = trunc8 (a.toNat - b.toNat + b.toNat) := (BitVec.ofInt_add _ _).symm
    _ = a := by rw [sub_add_cancel, trunc8_toNat]

theorem alu_ADDI : alu .ADDI a b = ⟨a + b, none⟩ := by
  rw [alu, trunc8_add]

theorem alu_ADD : alu .ADD a b = ⟨a + b, some (decide (0xFF < a.toNat + b.toNat))⟩ := by
  rw [alu, trunc8_add]

theorem alu_SUB : alu .SUB a b = ⟨a - b, some (decide (b < a))⟩ := by
  rw [alu, trunc8_sub]
  rfl

theorem alu_SUBN : alu .SUBN a b = ⟨b - a, some (decide (a < b))⟩ := by
  rw [alu, trunc8_sub]
  rfl

theorem alu_SHR : alu .SHR a b = ⟨BitVec.ofNat 8 (a.toNat / 2), some (decide (a.toNat % 2 = 1))⟩ := by
  have hhalf : a >>> 1 = BitVec.ofNat 8 (a.toNat / 2) := by
    bv_omega
  have hlow : a.getLsbD 0 = decide (a.toNat % 2 = 1) := by
    rw [BitVec.getLsbD, Nat.testBit_zero]
  rw [alu, hhalf, hlow]

theorem alu_SHL : alu .SHL a b = ⟨a + a, some (decide (0x80 ≤ a.toNat))⟩ := by
  have hdouble : trunc8 (a.toNat <<< 1 : Nat) = a + a := by
    rw [← trunc8_add, Nat.shiftLeft_eq, pow_one, Nat.mul_two, Nat.cast_add]
  have htop : a.getLsbD 7 = decide (0x80 ≤ a.toNat) := BitVec.msb_eq_decide a
  rw [alu, hdouble, htop]

end AluValues

/-! ### What an ALU instruction writes -/

section AluWrites

variable {s : State} {op : AluOp} {x : RegIdx} {b r : Byte}

theorem setReg_writesReg : WritesReg s (s.setReg x r) x r :=
  ⟨rfl, (reg_setReg s x x r).trans (if_pos rfl), fun _ => reg_setReg_other s r⟩

/-- With no flag, V[x] alone is written: VF is not reset (R39). -/
theorem aluInstr_writesReg (h : alu op (s.reg x) b = ⟨r, none⟩) :
    ∃ t, aluInstr op x b s = .next t ∧ WritesReg s t x r := by
  rw [aluInstr, h]
  exact ⟨_, rfl, setReg_writesReg⟩

/-- With a flag, VF is written after V[x], and holds the flag for x = 0xF too (R132). -/
theorem aluInstr_writesRegAndFlag {f : Bool} (h : alu op (s.reg x) b = ⟨r, some f⟩) :
    ∃ t, aluInstr op x b s = .next t ∧ WritesRegAndFlag s t x r f := by
  rw [aluInstr, h]
  refine ⟨_, rfl, rfl, ?_, fun hx => ?_, fun q hq hVF => ?_⟩
  · exact (reg_writeAlu s x 15 _).trans (if_pos rfl)
  · exact (reg_writeAlu s x x _).trans ((if_neg hx).trans (if_pos rfl))
  · exact reg_writeAlu_other s _ (not_or.2 ⟨hq, hVF⟩)

end AluWrites

/-! ### The instructions -/

/-- Settles O28: a load, and an ALU operation with no flag. -/
theorem immediateLoadAndAdd : Obligations.ImmediateLoadAndAdd :=
  ⟨fun x nn => Laws.RoundTrip.ldImm (regOf x) nn rfl, fun x nn => Laws.RoundTrip.addImm (regOf x) nn rfl,
    fun _ _ _ => ⟨⟨_, rfl, setReg_writesReg⟩, aluInstr_writesReg (alu_ADDI _ _)⟩⟩

/-- Settles O29: none of the four operations has a flag. -/
theorem copyAndLogic : Obligations.CopyAndLogic :=
  ⟨fun x y => Laws.RoundTrip.ldReg (regOf x) (regOf y) rfl, fun x y => Laws.RoundTrip.orReg (regOf x) (regOf y) rfl,
    fun x y => Laws.RoundTrip.andReg (regOf x) (regOf y) rfl, fun x y => Laws.RoundTrip.xorReg (regOf x) (regOf y) rfl,
    fun _ _ _ => ⟨aluInstr_writesReg rfl, aluInstr_writesReg rfl, aluInstr_writesReg rfl, aluInstr_writesReg rfl⟩⟩

/-- Settles O30, from the sum and the carry (`alu_ADD`). -/
theorem addWithCarry : Obligations.AddWithCarry :=
  ⟨fun x y => Laws.RoundTrip.addReg (regOf x) (regOf y) rfl,
    fun _ _ _ => aluInstr_writesRegAndFlag (alu_ADD _ _)⟩

/-- Settles O31, from the difference and the strict comparison (`alu_SUB`, `alu_SUBN`). -/
theorem subtractWithNotBorrow : Obligations.SubtractWithNotBorrow :=
  ⟨fun x y => Laws.RoundTrip.subReg (regOf x) (regOf y) rfl,
    fun x y => Laws.RoundTrip.subnReg (regOf x) (regOf y) rfl,
    fun _ _ _ => ⟨aluInstr_writesRegAndFlag (alu_SUB _ _), aluInstr_writesRegAndFlag (alu_SUBN _ _)⟩⟩

/-- Settles O32: of V[x] alone, the half with its low bit and the double with its top bit (`alu_SHR`, `alu_SHL`). -/
theorem shiftsOutOneBit : Obligations.ShiftsOutOneBit :=
  ⟨fun x y => Laws.RoundTrip.shr (regOf x) (regOf y) rfl, fun x y => Laws.RoundTrip.shl (regOf x) (regOf y) rfl,
    fun _ _ _ => ⟨aluInstr_writesRegAndFlag (alu_SHR _ _), aluInstr_writesRegAndFlag (alu_SHL _ _)⟩⟩

/-- Settles O33: the effect is a load of the masked draw, and a bit masked by 0 is 0 whatever the draw. -/
theorem randomByteMasked : Obligations.RandomByteMasked := by
  refine ⟨fun x nn => Laws.RoundTrip.rnd (regOf x) nn rfl, fun x nn s => ?_⟩
  obtain ⟨-, hreg, hother⟩ : WritesReg s (s.setReg x (Config.rand s.randDraws &&& nn)) x _ := setReg_writesReg
  refine ⟨_, rfl, rfl, hreg, hother, fun b hb => ?_⟩
  calc (State.reg _ x).getLsbD b = (Config.rand s.randDraws &&& nn).getLsbD b := congrArg (BitVec.getLsbD · b) hreg
    _ = false := by rw [BitVec.getLsbD_and, hb, Bool.and_false]

end Sys2Proof.Machine
end

section
/-! PROOFS. Index register and memory transfers (43_index_memory.md): the values that I is loaded with, and for each of
the three transfers its effect where all its addresses are in memory, its fault where one is not. -/

namespace Sys2Proof.Machine

open Sys2Proof.Spec

/-! ### Values of I -/

/-- The exact sum, reduced modulo 2^16 (R181). -/
theorem toNat_trunc16_natCast (n : Nat) : (trunc16 n).toNat = n % 65536 := by
  rw [trunc16, BitVec.ofInt_natCast, BitVec.toNat_ofNat]

/-- A glyph's address is 5 times the low nibble: the product does not wrap (R183). -/
theorem toNat_glyphAddr (v : Byte) : (glyphAddr v).toNat = v.toNat % 16 * 5 := by
  have hnib : (v &&& 0x0F).toNat = v.toNat % 16 := by
    rw [BitVec.toNat_and]
    exact Nat.and_two_pow_sub_one_eq_mod v.toNat 4
  calc (glyphAddr v).toNat = (v &&& 0x0F).toNat * 5 % 65536 := toNat_trunc16_natCast _
    _ = v.toNat % 16 * 5 := by rw [hnib]; omega

/-- Settles O34: each of the three is one write of I, with no fault. -/
theorem indexRegisterLoads : Obligations.IndexRegisterLoads :=
  ⟨fun nnn => Laws.RoundTrip.ldI nnn rfl, fun x => Laws.RoundTrip.addI (regOf x) rfl,
    fun x => Laws.RoundTrip.ldF (regOf x) rfl, fun nnn _ _ =>
      ⟨⟨_, exec_of_noFault rfl, rfl, toNat_zext16 nnn (by omega)⟩,
        ⟨_, exec_of_noFault rfl, rfl, toNat_trunc16_natCast _⟩,
        ⟨_, exec_of_noFault rfl, rfl, toNat_glyphAddr _⟩⟩⟩

/-! ### Accesses inside and outside memory -/

section Access

variable {s : State} {count : Nat}

/-- A data access of I up to I + count ends in memory (R57). -/
theorem dataFault_of_inside (h : s.I.toNat + count ≤ 0xFFF) : dataFault s (count + 1) = none :=
  dataFault_eq_none.2 (.inr (by omega))

/-- A data access of I up to I + count leaves memory: the info is the lowest address that does (R57, R241). -/
theorem dataFault_of_outside (h : 0xFFF < s.I.toNat + count) :
    dataFault s (count + 1) = some (.DataOutOfRange, max s.I.toNat 0x1000) := by
  have hinfo : (if 0xFFF < s.I.toNat then s.I.toNat else 0x1000) = max s.I.toNat 0x1000 := by
    split <;> omega
  rw [dataFault, if_pos (by omega), hinfo]

end Access

/-! ### The three transfers -/

theorem read_writeBytes_inside {m : Memory} {a k : Nat} {bs : List Byte} (hin : a + bs.length ≤ 4096)
    (hk : k < bs.length) : (m.writeBytes a bs).read (a + k) = bs[k] := by
  rw [read_writeBytes _ _ _ _ hin, dif_pos (by omega)]
  simp

/-- The k-th byte that FX33 stores is the k-th decimal digit (R184). -/
theorem effect_ldB_readByte {x : RegIdx} {s : State} {k : Nat} (hin : s.I.toNat + 2 ≤ 0xFFF) (hk : k < 3) :
    (effect (.ldB x) s).readByte (s.I.toNat + k) = (bcdDigits (s.reg x))[k] :=
  read_writeBytes_inside (Nat.succ_le_succ hin) hk

/-- The digits fit in a byte (R184). -/
theorem toNat_bcdDigits (v : Byte) :
    (bcdDigits v)[0].toNat = v.toNat / 100 ∧ (bcdDigits v)[1].toNat = v.toNat / 10 % 10 ∧
      (bcdDigits v)[2].toNat = v.toNat % 10 :=
  ⟨Nat.mod_eq_of_lt (by omega), Nat.mod_eq_of_lt (by omega), Nat.mod_eq_of_lt (by omega)⟩

/-- Settles O35, from the digits (`toNat_bcdDigits`) and where they are stored (`effect_ldB_readByte`). -/
theorem decimalStore : Obligations.DecimalStore := by
  refine ⟨fun x => Laws.RoundTrip.ldB (regOf x) rfl, fun x s hin => ?_,
    fun x s hs hout => exec_eq_faulted hs (dataFault_of_outside hout)⟩
  have hf : modelFault (.ldB x) s = none := dataFault_of_inside hin
  obtain ⟨hhundreds, htens, hones⟩ := toNat_bcdDigits (s.reg x)
  exact ⟨_, exec_of_noFault hf, rfl,
    (congrArg _ (effect_ldB_readByte (k := 0) hin (by omega))).trans hhundreds,
    (congrArg _ (effect_ldB_readByte hin (by omega))).trans htens,
    (congrArg _ (effect_ldB_readByte hin (by omega))).trans hones, fun _ => effect_readByte hf⟩

/-- Settles O36: what stands in the block (`effect_store_readByte`) and what stays beside it (`effect_readByte`). -/
theorem registerBlockStore : Obligations.RegisterBlockStore := by
  refine ⟨fun x => Laws.RoundTrip.store (regOf x) rfl, fun x s hin => ?_,
    fun x s hs hout => exec_eq_faulted hs (dataFault_of_outside hout)⟩
  have hf : modelFault (.store x) s = none := dataFault_of_inside hin
  exact ⟨_, exec_of_noFault hf, rfl, fun _ => effect_store_readByte hin, fun _ => effect_readByte hf⟩

/-- Settles O37: a register of the loaded block takes its byte, and one above x is left (`reg_loadBlock`). -/
theorem registerBlockLoad : Obligations.RegisterBlockLoad := by
  refine ⟨fun x => Laws.RoundTrip.load (regOf x) rfl, fun x s hin => ?_,
    fun x s hs hout => exec_eq_faulted hs (dataFault_of_outside hout)⟩
  have hf : modelFault (.load x) s = none := dataFault_of_inside hin
  exact ⟨_, exec_of_noFault hf, rfl, fun k hk => (reg_loadBlock s x k).trans (if_pos hk),
    fun k hk => (reg_loadBlock s x k).trans (if_neg hk.not_ge)⟩

end Sys2Proof.Machine
end

section
/-! PROOFS. The display (44_display.md): which events write it, and what drawing a sprite does to each cell and to VF.
The cells are those of `drawSprite_at`, the collision that of `drawSprite_collision`. -/

namespace Sys2Proof.Machine

open Sys2Proof.Spec

/-! ### Which instructions write the display -/

theorem cell_clear (k : Nat) : Display.clear.cell k = false := at_clear _ _

/-- Every instruction but 00E0 and DXYN leaves the display and `dirty` as they were (R205). -/
theorem effect_disp_dirty {i : Instr} (s : State) (hcls : ∀ p, i ≠ .cls p) (hdrw : ∀ x y n, i ≠ .drw x y n) :
    (effect i s).disp = s.disp ∧ (effect i s).dirty = s.dirty := by
  cases i with
  | cls pad => exact absurd rfl (hcls pad)
  | drw x y n => exact absurd rfl (hdrw x y n)
  | ldVxK x =>
    rw [effect, keyWait_frame]
    exact ⟨rfl, rfl⟩
  | _ => simp [effect, State.skip]

/-- Settles O14: a fault writes neither element, and no effect but 00E0's and DXYN's does. -/
theorem onlyClsAndDrwChangeDisplay : Obligations.OnlyClsAndDrwChangeDisplay := by
  refine ⟨fun i s t h hcls hdrw => ?_, fun s => ⟨tick_disp s, rfl, fun _ => rfl, fun k _ => cell_clear k⟩⟩
  obtain ⟨f, -, rfl⟩ | ⟨-, rfl⟩ := exec_next_cases h
  · simp
  · exact effect_disp_dirty s hcls hdrw

/-- Settles O39: 00E0 raises no fault and its effect is the clear display. -/
theorem clearScreen : Obligations.ClearScreen :=
  ⟨fun x => Laws.RoundTrip.cls x rfl, fun _ _ => ⟨_, exec_of_noFault rfl, rfl, fun k _ => cell_clear k⟩⟩

/-! ### Cells and bits -/

/-- A display is given by its 32 rows of 64 cells (R30). -/
theorem Display.ext_cell {d e : Display} (h : ∀ r c, r < 32 → c < 64 → d.cell (r * 64 + c) = e.cell (r * 64 + c)) :
    d = e := by
  ext r hr c hc
  have hcell := h r c hr hc
  rwa [cell_at _ _ _ hc, cell_at _ _ _ hc, Display.at, Display.at, dif_pos hr, dif_pos hr, BitVec.getLsbD_eq_getElem hc,
    BitVec.getLsbD_eq_getElem hc] at hcell

theorem bit_eq_zero_or_one (b : Bool) : bit b = 0 ∨ bit b = 1 := by
  cases b
  · exact .inl rfl
  · exact .inr rfl

theorem bit_eq_one_iff (b : Bool) : bit b = 1 ↔ b = true := by
  cases b <;> decide

/-- A set sprite bit stands in the sprite's rows and columns (R204). -/
theorem spriteBit_window {ox oy base n r c : Nat} {m : Memory} (h : spriteBit ox oy base n m r c = true) :
    oy ≤ r ∧ r < oy + n ∧ ox ≤ c ∧ c < ox + 8 := by
  rw [spriteBit, Bool.and_eq_true, decide_eq_true_eq] at h
  exact h.1

/-! ### Drawing a sprite -/

section Draw

variable {x y : RegIdx} {n : Nibble} {s : State}

/-- Whether the sprite that DXYN draws from `s` has a set bit for the cell at row `r` and column `c`. -/
abbrev State.spriteCell (s : State) (x y : RegIdx) (n : Nibble) (r c : Nat) : Bool :=
  spriteBit ((s.reg x).toNat % 64) ((s.reg y).toNat % 32) s.I.toNat n.toNat s.mem r c

/-- A sprite with no rows, or with its last row in memory, is drawn (R202). -/
theorem modelFault_drw_of_inside (h : n = 0 ∨ s.I.toNat + (n.toNat - 1) ≤ 0xFFF) :
    modelFault (.drw x y n) s = none := by
  refine dataFault_eq_none.2 (h.imp (fun hn => ?_) fun hin => ?_)
  · rw [hn]
    rfl
  · omega

/-- A sprite with a row beyond memory raises DataOutOfRange with the lowest such address (R202). -/
theorem modelFault_drw_of_outside (hn : n ≠ 0) (h : 0xFFF < s.I.toNat + (n.toNat - 1)) :
    modelFault (.drw x y n) s = some (.DataOutOfRange, max s.I.toNat 0x1000) := by
  have hpos : n.toNat ≠ 0 := fun h0 => hn (BitVec.eq_of_toNat_eq h0)
  have hcount : n.toNat = n.toNat - 1 + 1 := by omega
  rw [modelFault, hcount]
  exact dataFault_of_outside h

/-- A cell after DXYN (R201). -/
theorem effect_drw_cell {r c : Nat} (hr : r < 32) (hc : c < 64) :
    (effect (.drw x y n) s).disp.cell (r * 64 + c) = (s.disp.cell (r * 64 + c) ^^ s.spriteCell x y n r c) := by
  rw [cell_at _ _ _ hc, cell_at _ _ _ hc]
  exact drawSprite_at _ _ _ _ _ _ _ _ hr hc

/-- VF after DXYN is the collision flag (R201). -/
theorem effect_drw_VF :
    (effect (.drw x y n) s).reg 15 =
      bit (drawSprite ((s.reg x).toNat % 64) ((s.reg y).toNat % 32) s.I.toNat n.toNat s.mem s.disp).2 :=
  (reg_setReg s VF 15 _).trans (if_pos rfl)

/-- VF after DXYN is 1 exactly where a set sprite bit met a lit cell (R201). -/
theorem effect_drw_VF_eq_one :
    (effect (.drw x y n) s).reg 15 = 1 ↔
      ∃ r c, r < 32 ∧ c < 64 ∧ s.spriteCell x y n r c = true ∧ s.disp.cell (r * 64 + c) = true := by
  rw [effect_drw_VF, bit_eq_one_iff, drawSprite_collision]
  refine exists₂_congr fun r c => and_congr_right fun _ => and_congr_right fun hc => ?_
  rw [cell_at _ _ _ hc]

/-- A second draw of the same sprite undoes the first, cell by cell. -/
theorem effect_drw_twice_disp :
    (effect (.drw x y n) { effect (.drw x y n) s with V := s.V }).disp = s.disp := by
  refine Display.ext_cell fun r c hr hc => ?_
  calc (effect (.drw x y n) { effect (.drw x y n) s with V := s.V }).disp.cell (r * 64 + c)
      = ((effect (.drw x y n) s).disp.cell (r * 64 + c) ^^ s.spriteCell x y n r c) := effect_drw_cell hr hc
    _ = ((s.disp.cell (r * 64 + c) ^^ s.spriteCell x y n r c) ^^ s.spriteCell x y n r c) := by
      rw [effect_drw_cell hr hc]
    _ = s.disp.cell (r * 64 + c) := by rw [Bool.xor_assoc, Bool.xor_self, Bool.xor_false]

/-- Under a set sprite bit the first draw lights just the dark cells, so the second one's VF tells of these. -/
theorem effect_drw_twice_VF_eq_one :
    (effect (.drw x y n) { effect (.drw x y n) s with V := s.V }).reg 15 = 1 ↔
      ∃ r c, r < 32 ∧ c < 64 ∧ s.spriteCell x y n r c = true ∧ s.disp.cell (r * 64 + c) = false := by
  refine effect_drw_VF_eq_one.trans (exists₂_congr fun r c => and_congr_right fun hr => and_congr_right fun hc =>
    and_congr_right fun (hset : s.spriteCell x y n r c = true) => ?_)
  calc (effect (.drw x y n) s).disp.cell (r * 64 + c) = true
      ↔ (s.disp.cell (r * 64 + c) ^^ s.spriteCell x y n r c) = true := by rw [effect_drw_cell hr hc]
    _ ↔ s.disp.cell (r * 64 + c) = false := by rw [hset, Bool.xor_true, Bool.not_eq_true']

end Draw

/-- Settles O40: the cells (`effect_drw_cell`), VF (`effect_drw_VF_eq_one`) and the fault of a sprite that leaves
memory. -/
theorem spriteDrawCellByCell : Obligations.SpriteDrawCellByCell := by
  refine ⟨fun x y n => Laws.RoundTrip.drw (regOf x) (regOf y) n rfl, fun x y n s hin => ?_,
    fun x y n s hs hn hout => exec_eq_faulted hs (modelFault_drw_of_outside hn hout)⟩
  exact ⟨_, exec_of_noFault (modelFault_drw_of_inside hin), rfl, fun r c => effect_drw_cell,
    fun q hq => effect_reg s hq, effect_drw_VF ▸ bit_eq_zero_or_one _, effect_drw_VF_eq_one⟩

/-- Settles O41: a fault leaves every cell, and a draw changes only cells under set bits (`spriteBit_window`). -/
theorem spriteStaysInItsWindow : Obligations.SpriteStaysInItsWindow := by
  intro x y n s t r c h hr hc hne
  obtain ⟨f, -, rfl⟩ | ⟨-, rfl⟩ := exec_next_cases h
  · simp at hne
  · have hbit : s.spriteCell x y n r c = true := by
      by_contra hclear
      rw [Bool.not_eq_true] at hclear
      exact hne (by rw [effect_drw_cell hr hc, hclear, Bool.xor_false])
    obtain ⟨hoy, hrow, hox, hcol⟩ := spriteBit_window hbit
    omega

/-- Settles O42: the first draw leaves I and memory, so the second draws the same sprite, with no fault either. -/
theorem drawingTwiceErases : Obligations.DrawingTwiceErases := fun _ _ _ _ hin =>
  ⟨_, _, exec_of_noFault (modelFault_drw_of_inside hin), exec_of_noFault (modelFault_drw_of_inside hin),
    effect_drw_twice_disp, effect_drw_twice_VF_eq_one⟩

end Sys2Proof.Machine
end

section
/-! PROOFS. Timers and keys (45_timers_keys.md): each transfer's effect is one write; FX0A's is decided by the key that
`selectKey` takes from the list of pressed keys (`selectKey_mem`). -/

namespace Sys2Proof.Machine

open Sys2Proof.Spec

/-- Settles O43: no transfer has a fault, and the effect of each is one write. -/
theorem timerTransfers : Obligations.TimerTransfers :=
  ⟨fun x => Laws.RoundTrip.ldVxDT (regOf x) rfl, fun x => Laws.RoundTrip.ldDTVx (regOf x) rfl,
    fun x => Laws.RoundTrip.ldSTVx (regOf x) rfl, fun _ _ =>
      ⟨⟨_, exec_of_noFault rfl, setReg_writesReg⟩, ⟨_, exec_of_noFault rfl, rfl, rfl⟩,
        ⟨_, exec_of_noFault rfl, rfl, rfl⟩⟩⟩

/-! ### The selected key -/

theorem mem_pressed {s : State} {k : KeyIdx} : k ∈ s.pressed ↔ s.keyDown k = true := by
  simp [State.pressed]

theorem pressed_eq_nil {s : State} (h : ∀ k, s.keyDown k = false) : s.pressed = [] :=
  List.filter_eq_nil_iff.2 fun k _ => ne_true_of_eq_false (h k)

/-- Whatever index the free value gives, one of the keys is selected: the index is taken modulo their number (D14). -/
theorem selectKey_mem (draw : Nat) {keys : List KeyIdx} (h : keys ≠ []) :
    ∃ k ∈ keys, selectKey draw keys = some k := by
  match keys, h with
  | [k], _ => exact ⟨k, List.mem_singleton_self k, rfl⟩
  | k :: l :: keys, _ =>
    have hlt : Config.keySelect draw (k :: l :: keys) % (k :: l :: keys).length < (k :: l :: keys).length :=
      Nat.mod_lt _ (Nat.succ_pos _)
    exact ⟨_, List.getElem_mem hlt, List.getElem?_eq_getElem hlt⟩

theorem toNat_keyByte (k : KeyIdx) : (keyByte k).toNat = k.val :=
  Nat.mod_eq_of_lt (by omega)

/-- FX0A, once the selected key is known (R221). -/
theorem exec_ldVxK_of_selectKey {x : RegIdx} {s : State} {k : Option KeyIdx}
    (h : selectKey s.keyDraws s.pressed = k) : exec (.ldVxK x) s = .next (s.keyWait x k) := by
  rw [exec_of_noFault rfl, effect, h]

/-- Settles O44: with no key pressed none is selected; else a pressed key is (`selectKey_mem`), and V[x] takes it. -/
theorem keyWait : Obligations.KeyWait := by
  refine ⟨fun x => Laws.RoundTrip.ldVxK (regOf x) rfl, fun x s hnone => ?_, fun x s j hj => ?_⟩
  · have hsel : selectKey s.keyDraws s.pressed = none := by rw [pressed_eq_nil hnone, selectKey]
    exact exec_ldVxK_of_selectKey hsel
  · obtain ⟨k, hk, hsel⟩ := selectKey_mem s.keyDraws (List.ne_nil_of_mem (mem_pressed.2 hj))
    obtain ⟨-, hreg, hother⟩ : WritesReg s (s.setReg x (keyByte k)) x (keyByte k) := setReg_writesReg
    exact ⟨_, k, exec_ldVxK_of_selectKey hsel, mem_pressed.1 hk,
      (congrArg BitVec.toNat hreg).trans (toNat_keyByte k), hother, rfl⟩

end Sys2Proof.Machine
end

section
/-! PROOFS. Exceptions (60_exceptions.md). Once for all statements: what a `step` event does by the fault it records, if
any (`stepFault`); what each signal does; and what a poll does, with and without a reset. -/

namespace Sys2Proof.Machine

open Sys2Proof.Spec

/-! ### The step event: its fault, or the instruction's effect -/

@[simp] theorem rewindPc_advancePc (s : State) : s.advancePc.rewindPc = s := by
  simp [State.advancePc, State.rewindPc, State.setPc]

/-- The table of faults does not read pc. -/
@[simp] theorem modelFault_advancePc (i : Instr) (s : State) : modelFault i s.advancePc = modelFault i s := by
  cases i <;> rfl

/-- The fault that a `step` event of an unfaulted block records (R56, R241, R242). -/
def stepFault (s : State) : Option FaultRecord :=
  if 0xFFE < s.pc.toNat then some ⟨.FetchOutOfRange, s.pc, 0, s.pc.toNat⟩
  else (modelFault (decodeWord s.fetchWord) s).map fun f => ⟨f.1, s.pc, s.fetchWord, f.2⟩

theorem recordFault_of_safe {s : State} (f : FaultRecord) (hs : s.fault = none) :
    s.recordFault f = { s with fault := some f } := by
  rw [State.recordFault, hs]

section StepEvent

variable {s : State} (hs : s.fault = none)

include hs

/-- A `step` event whose fetch or instruction faults writes the fault register alone (R243). -/
theorem blockStep_of_stepFault {f : FaultRecord} (hf : stepFault s = some f) :
    blockStep s = .next { s with fault := some f } := by
  unfold stepFault at hf
  split at hf
  · rename_i hpc
    cases hf
    rw [blockStep_of_unfetchable hs (by omega), raiseFetchFault_eq hs]
  · rename_i hpc
    obtain ⟨r, hr, rfl⟩ := Option.map_eq_some_iff.1 hf
    have hexec : modelFault (decodeWord s.fetchWord) s.advancePc = some r := (modelFault_advancePc _ _).trans hr
    rw [blockStep_of_fetchable hs (by omega), exec_of_fault hexec, raiseFault, rewindPc_advancePc, encode_decodeWord,
      recordFault_of_safe _ hs]

/-- A `step` event without a fault is the instruction's effect after the advance (R71). -/
theorem blockStep_of_noStepFault (hf : stepFault s = none) :
    blockStep s = .next (effect (decodeWord s.fetchWord) s.advancePc) := by
  unfold stepFault at hf
  split at hf
  · cases hf
  · rename_i hpc
    have hexec : modelFault (decodeWord s.fetchWord) s.advancePc = none :=
      (modelFault_advancePc _ _).trans (Option.map_eq_none_iff.1 hf)
    rw [blockStep_of_fetchable hs (by omega), exec_of_noFault hexec]

/-- A `step` event from an unfaulted block records the fault of `stepFault` and nothing else, or records none. -/
theorem blockStep_cases :
    (∃ f, stepFault s = some f ∧ blockStep s = .next { s with fault := some f }) ∨
      (stepFault s = none ∧ ∃ t, blockStep s = .next t ∧ t.fault = none) := by
  cases hf : stepFault s with
  | some f => exact .inl ⟨f, rfl, blockStep_of_stepFault hs hf⟩
  | none => exact .inr ⟨rfl, _, blockStep_of_noStepFault hs hf, by simp [hs]⟩

end StepEvent

/-- Settles O10: `stepFault` is the whole table. -/
theorem modelFaultTable : Obligations.ModelFaultTable := by
  intro s hs
  change ∃ t, blockStep s = .next t ∧ t.fault = stepFault s
  obtain ⟨f, hf, hstep⟩ | ⟨hf, t, hstep, ht⟩ := blockStep_cases hs
  · exact ⟨_, hstep, hf.symm⟩
  · exact ⟨t, hstep, ht.trans hf.symm⟩

/-- Settles O11: a fault is recorded before any write, and the advance is undone. -/
theorem faultsArePrecise : Obligations.FaultsArePrecise := by
  intro s t hs hstep hfault
  obtain ⟨f, -, hnext⟩ | ⟨-, t', hnext, ht'⟩ := blockStep_cases hs
  · cases hnext.symm.trans hstep
    rfl
  · cases hnext.symm.trans hstep
    exact absurd ht' hfault

/-- Settles O7: the word decoded is the one recorded, and the instruction keeps all its bits (`encode_decodeWord`). -/
theorem traceRecordsTheStep : Obligations.TraceRecordsTheStep := by
  intro s hs hpc
  have htrace : traceOf s =
      some ⟨s.pc, s.fetchWord, decodeRecord s.fetchWord, Config.traceText s.pc s.fetchWord⟩ := by
    simp [traceOf, hs, State.fetchable, hpc]
  exact ⟨⟨_, htrace⟩, decodeWord s.fetchWord, rfl, encode_decodeWord _, blockStep_of_fetchable hs hpc⟩

/-! ### What no step event writes -/

/-- The keypad, `tone` and the sequencer's data are as before. -/
def SequencerHeld (s t : State) : Prop :=
  t.runState = s.runState ∧ t.stepsLeft = s.stepsLeft ∧ t.key = s.key ∧ t.tone = s.tone ∧ t.inbox = s.inbox ∧
    t.params = s.params

/-- Every `step` event answers a next state (R276), and writes neither keypad nor `tone` nor the sequencer's data. -/
theorem blockStep_next (s : State) : ∃ t, blockStep s = .next t ∧ SequencerHeld s t := by
  cases hs : s.fault with
  | some f => exact ⟨s, blockStep_of_faulted hs, rfl, rfl, rfl, rfl, rfl, rfl⟩
  | none =>
    cases hf : stepFault s with
    | some f => exact ⟨_, blockStep_of_stepFault hs hf, rfl, rfl, rfl, rfl, rfl, rfl⟩
    | none => exact ⟨_, blockStep_of_noStepFault hs hf, by simp [SequencerHeld]⟩

/-! ### A step of the machine, by `run_state` -/

theorem step_of_quit {s : State} (hrun : s.runState = .Quit) : step s = .next s := by
  rw [step, hrun]

theorem step_of_paused {s : State} (hrun : s.runState = .Paused) : step s = .next (pollInput s) := by
  rw [step, hrun]

theorem step_of_sliceEnd {s : State} (hrun : s.runState = .Running) (hleft : s.stepsLeft = 0) :
    step s = .next (endSlice s) := by
  rw [step, hrun, hleft]

/-- Settles O9, by `run_state` and the steps left in the slice. -/
theorem everyStepAnswersNext : Obligations.EveryStepAnswersNext := by
  intro s
  cases hrun : s.runState with
  | Quit => exact ⟨_, step_of_quit hrun⟩
  | Paused => exact ⟨_, step_of_paused hrun⟩
  | Running =>
    cases hleft : s.stepsLeft with
    | zero => exact ⟨_, step_of_sliceEnd hrun hleft⟩
    | succ n =>
      obtain ⟨t, ht, -⟩ := blockStep_next { s with stepsLeft := n }
      exact ⟨t, (step_of_running hrun hleft).trans ht⟩

/-! ### Ticks -/

theorem toNat_countDown (t : Byte) : (countDown t).toNat = t.toNat - 1 := by
  unfold countDown
  split
  · simp_all
  · bv_omega

section Tick

variable {s : State} (hs : s.fault = none)

include hs

theorem toNat_tick_DT : (tick s).DT.toNat = s.DT.toNat - 1 := by
  rw [tick, hs]
  exact toNat_countDown s.DT

theorem toNat_tick_ST : (tick s).ST.toNat = s.ST.toNat - 1 := by
  rw [tick, hs]
  exact toNat_countDown s.ST

theorem tick_tone : (tick s).tone = decide (0 < s.ST.toNat) := by
  rw [tick, hs]

end Tick

theorem tick_of_faulted {s : State} {f : FaultRecord} (h : s.fault = some f) : tick s = s := by
  rw [tick, h]

/-- Settles O46: each timer counts down on its own value. -/
theorem tickCountsDown : Obligations.TickCountsDown := by
  intro s hs
  exact ⟨tick_frame s, toNat_tick_DT hs, toNat_tick_ST hs, by rw [tick_tone hs, decide_eq_true_eq]⟩

/-- Settles O47, by induction on the number of ticks. -/
theorem timersAfterManyTicks : Obligations.TimersAfterManyTicks := by
  intro k
  induction k with
  | zero => exact fun _ _ => ⟨rfl, rfl⟩
  | succ k ih =>
    intro s hs
    obtain ⟨hDT, hST⟩ := ih (tick s) ((tick_fault s).trans hs)
    rw [toNat_tick_DT hs] at hDT
    rw [toNat_tick_ST hs] at hST
    rw [Function.iterate_succ_apply]
    omega

/-! ### Signals -/

section Signals

variable {s : State}

theorem handleSignal_of_quit (hrun : s.runState = .Quit) (g : Signal) : handleSignal s g = s := by
  simp only [handleSignal, hrun]

theorem handleSignals_of_quit (hrun : s.runState = .Quit) (gs : List Signal) : handleSignals s gs = s := by
  induction gs with
  | nil => rfl
  | cons g gs ih => rw [handleSignals, handleSignal_of_quit hrun, ih]

theorem handleSignal_quit (hrun : s.runState ≠ .Quit) : handleSignal s .quit = { s with runState := .Quit } := by
  cases h : s.runState with
  | Quit => exact absurd h hrun
  | Running | Paused => simp only [handleSignal, h]

theorem handleSignal_reset (hrun : s.runState ≠ .Quit) :
    handleSignal s .reset = { blockReset s with runState := .Running } := by
  cases h : s.runState with
  | Quit => exact absurd h hrun
  | Running | Paused => simp only [handleSignal, h]

theorem handleSignal_pauseToggle_running (hrun : s.runState = .Running) :
    handleSignal s .pauseToggle = { s with runState := .Paused } := by
  simp only [handleSignal, hrun]

theorem handleSignal_pauseToggle_paused (hrun : s.runState = .Paused) :
    handleSignal s .pauseToggle = { s with runState := .Running } := by
  simp only [handleSignal, hrun]

theorem handleSignal_quit_runState (s : State) : (handleSignal s .quit).runState = .Quit := by
  by_cases hrun : s.runState = .Quit
  · rw [handleSignal_of_quit hrun, hrun]
  · rw [handleSignal_quit hrun]

/-- In Quit any number of steps answers the same state (log entry 9). -/
theorem runFor_of_quit (hrun : s.runState = .Quit) (k : Nat) : runFor k s = .next s := by
  induction k with
  | zero => rfl
  | succ k ih => simp only [runFor, step_of_quit hrun, ih]

end Signals

/-- Settles O51, from what each signal does. -/
theorem runStateTransitions : Obligations.RunStateTransitions := fun _ =>
  ⟨handleSignal_quit, handleSignal_pauseToggle_running, handleSignal_pauseToggle_paused, handleSignal_reset,
    fun hrun => ⟨handleSignal_of_quit hrun, runFor_of_quit hrun⟩⟩

/-! ### Polls -/

/-- A poll's later signals act on the state that its keys and earlier signals leave (R275). -/
theorem applyPoll_append (s : State) (keys : List (KeyIdx × Bool)) (before after : List Signal) :
    applyPoll s ⟨keys, before ++ after⟩ = handleSignals (applyPoll s ⟨keys, before⟩) after :=
  handleSignals_append _ _ _

/-- Settles O52: after the quit, `run_state` is Quit, in which no signal does anything. -/
theorem quitEndsThePoll : Obligations.QuitEndsThePoll := by
  intro s keys before after
  have hquit := handleSignal_quit_runState (applyPoll s ⟨keys, before⟩)
  have hrest : applyPoll s ⟨keys, before ++ .quit :: after⟩ = handleSignal (applyPoll s ⟨keys, before⟩) .quit := by
    rw [applyPoll_append, handleSignals, handleSignals_of_quit hquit]
  refine ⟨?_, hrest ▸ hquit⟩
  rw [hrest, applyPoll_append]
  rfl

theorem lastUpdate_concat (keys : List (KeyIdx × Bool)) (u : KeyIdx × Bool) (k : KeyIdx) (old : Bool) :
    lastUpdate (keys ++ [u]) k old = if k = u.1 then u.2 else lastUpdate keys k old := by
  by_cases h : k = u.1
  · simp [lastUpdate, h]
  · simp [lastUpdate, h, Ne.symm h]

/-- Key updates leave each key at its last update (R263). -/
theorem keyDown_setKeys (s : State) (keys : List (KeyIdx × Bool)) (k : KeyIdx) :
    (keys.foldl setKey s).keyDown k = lastUpdate keys k (s.keyDown k) := by
  induction keys using List.reverseRecOn with
  | nil => rfl
  | append_singleton keys u ih =>
    rw [List.foldl_concat, setKey_keyDown, lastUpdate_concat, ih]

theorem pollInput_cons {s : State} {p : Poll} {ps : List Poll} (hinbox : s.inbox = p :: ps) :
    pollInput s = { applyPoll { s with inbox := ps } p with stepsLeft := s.params.stepsPerSlice } := by
  simp only [pollInput, hinbox, applyPoll_params]

theorem pollInput_nil {s : State} (hinbox : s.inbox = []) :
    pollInput s = { s with stepsLeft := s.params.stepsPerSlice } := by
  simp only [pollInput, hinbox]

/-- Settles O50: the poll is taken where `step` says, and its keys and signals act one after the other. -/
theorem pollDeliversKeysAndSignals : Obligations.PollDeliversKeysAndSignals :=
  ⟨fun _ => step_of_paused, fun _ => step_of_sliceEnd, fun _ _ _ => pollInput_cons, fun _ => pollInput_nil,
    fun s keys => ⟨_, rfl, setKeys_frame keys s, keyDown_setKeys s keys⟩,
    fun s keys gs g => applyPoll_append s keys gs [g]⟩

/-! ### Polls without a reset -/

/-- Key updates read the keypad alone. -/
theorem setKeys_key_congr {s s' : State} (keys : List (KeyIdx × Bool)) (hkey : s'.key = s.key) :
    (keys.foldl setKey s').key = (keys.foldl setKey s).key := by
  induction keys generalizing s s' with
  | nil => exact hkey
  | cons u keys ih => exact ih (by simp only [setKey, hkey])

@[simp] theorem setKeys_runState (s : State) (keys : List (KeyIdx × Bool)) :
    (keys.foldl setKey s).runState = s.runState := by
  rw [setKeys_frame]

/-- A signal reads `run_state` to decide the next one, and nothing else (R270). -/
theorem handleSignal_runState_congr {s s' : State} (g : Signal) (hrun : s'.runState = s.runState) :
    (handleSignal s' g).runState = (handleSignal s g).runState := by
  unfold handleSignal
  rw [hrun]
  split
  · exact hrun
  all_goals rfl

theorem handleSignals_runState_congr {s s' : State} (gs : List Signal) (hrun : s'.runState = s.runState) :
    (handleSignals s' gs).runState = (handleSignals s gs).runState := by
  induction gs generalizing s s' with
  | nil => exact hrun
  | cons g gs ih => exact ih (handleSignal_runState_congr g hrun)

/-- The keypad and `run_state` that a poll without a reset leaves depend on no other state element. -/
theorem applyPoll_congr {s s' : State} {p : Poll} (hp : .reset ∉ p.signals) (hkey : s'.key = s.key)
    (hrun : s'.runState = s.runState) :
    (applyPoll s' p).key = (applyPoll s p).key ∧ (applyPoll s' p).runState = (applyPoll s p).runState := by
  have hpollKey : ∀ s, (applyPoll s p).key = (p.keys.foldl setKey s).key := fun s => by
    rw [applyPoll, handleSignals_frame _ _ hp]
  constructor
  · rw [hpollKey, hpollKey, setKeys_key_congr _ hkey]
  · exact handleSignals_runState_congr p.signals (by simpa using hrun)

theorem noReset_of_inbox {s : State} {p : Poll} {ps : List Poll} (hreset : NoResetNext s) (hinbox : s.inbox = p :: ps) :
    .reset ∉ p.signals :=
  hreset p (by rw [hinbox]; rfl)

theorem noResetNext_congr {s s' : State} (hinbox : s'.inbox = s.inbox) (hreset : NoResetNext s) : NoResetNext s' := by
  rw [NoResetNext, hinbox]
  exact hreset

theorem pollDelivered_congr {s s' t : State} (hreset : NoResetNext s) (hinbox : s'.inbox = s.inbox)
    (hkey : s'.key = s.key) (hrun : s'.runState = s.runState) (h : PollDelivered s' t) : PollDelivered s t := by
  unfold PollDelivered at *
  rw [hinbox] at h
  cases hpolls : s.inbox with
  | nil =>
    rw [hpolls, hkey, hrun] at h
    exact h
  | cons p ps =>
    rw [hpolls] at h
    obtain ⟨htkey, htrun⟩ := h
    obtain ⟨hpollKey, hpollRun⟩ := applyPoll_congr (noReset_of_inbox hreset hpolls) hkey hrun
    exact ⟨htkey.trans hpollKey, htrun.trans hpollRun⟩

/-- A poll without a reset is delivered to the keypad and `run_state`. -/
theorem pollInput_delivered {s : State} (hreset : NoResetNext s) : PollDelivered s (pollInput s) := by
  cases hpolls : s.inbox with
  | nil =>
    rw [pollInput_nil hpolls, PollDelivered, hpolls]
    exact ⟨rfl, rfl⟩
  | cons p ps =>
    rw [pollInput_cons hpolls, PollDelivered, hpolls]
    exact applyPoll_congr (noReset_of_inbox hreset hpolls) rfl rfl

/-- A poll without a reset writes the keypad and `run_state`, is used up and refills the slice (R271). -/
theorem pollInput_frame {s : State} (hreset : NoResetNext s) : pollInput s = { s with
    key := (pollInput s).key, runState := (pollInput s).runState, inbox := s.inbox.tail,
    stepsLeft := s.params.stepsPerSlice } := by
  cases hpolls : s.inbox with
  | nil => rw [pollInput_nil hpolls, hpolls, List.tail_nil]
  | cons p ps =>
    rw [pollInput_cons hpolls, applyPoll_frame _ p (noReset_of_inbox hreset hpolls), List.tail_cons]

theorem pollInput_blockHeld {s : State} (hreset : NoResetNext s) : BlockHeld s (pollInput s) := by
  rw [pollInput_frame hreset]
  simp [BlockHeld]

theorem blockHeld_refl (s : State) : BlockHeld s s := by
  simp [BlockHeld]

/-- Settles O49: a paused step is a poll. -/
theorem pausedHoldsBlock : Obligations.PausedHoldsBlock := by
  intro s t hrun hreset ht
  cases (step_of_paused hrun).symm.trans ht
  refine ⟨pollInput_blockHeld hreset, ?_, pollInput_delivered hreset, ?_, ?_⟩ <;> rw [pollInput_frame hreset]

/-- Settles O12: of the events of a step, only the acknowledge and the poll have an effect in a faulted block. -/
theorem faultedBlockIsFrozen : Obligations.FaultedBlockIsFrozen := by
  intro s f hf
  refine ⟨blockStep_of_faulted hf, tick_of_faulted hf, rfl, rfl, fun t ht hreset => ?_⟩
  cases hrun : s.runState with
  | Quit =>
    cases (step_of_quit hrun).symm.trans ht
    exact blockHeld_refl s
  | Paused =>
    cases (step_of_paused hrun).symm.trans ht
    exact pollInput_blockHeld hreset
  | Running =>
    cases hleft : s.stepsLeft with
    | zero =>
      cases (step_of_sliceEnd hrun hleft).symm.trans ht
      rw [endSlice, tick_of_faulted hf, present_eq]
      exact pollInput_blockHeld (s := { s with dirty := false }) hreset
    | succ n =>
      rw [step_of_running hrun hleft, blockStep_of_faulted (s := { s with stepsLeft := n }) hf] at ht
      cases ht
      exact blockHeld_refl s

/-! ### A slice -/

/-- The steps of a slice run to its end, and keep what no `step` event writes. -/
theorem runFor_slice {n : Nat} {s : State} (hrun : s.runState = .Running) (hleft : s.stepsLeft = n) :
    ∃ u, runFor n s = .next u ∧ SequencerHeld { s with stepsLeft := 0 } u := by
  induction n generalizing s with
  | zero => exact ⟨s, rfl, rfl, hleft, rfl, rfl, rfl, rfl⟩
  | succ n ih =>
    obtain ⟨t, ht, htrun, htleft, htkey, httone, htinbox, htparams⟩ := blockStep_next { s with stepsLeft := n }
    obtain ⟨u, hu, hheld⟩ := ih (htrun.trans hrun) htleft
    refine ⟨u, ?_, ?_⟩
    · simp only [runFor, step_of_running hrun hleft, ht, hu]
    · simpa only [SequencerHeld, htrun, htkey, httone, htinbox, htparams] using hheld

/-- The end of a slice whose poll has no reset delivers the poll to the keypad and `run_state` that the steps left. -/
theorem endSlice_delivered {s : State} (hreset : NoResetNext s) : PollDelivered s (endSlice s) := by
  have hnext : NoResetNext (present (tick s)) := noResetNext_congr (by simp) hreset
  exact pollDelivered_congr hreset (by simp) (by simp) (by simp) (pollInput_delivered hnext)

/-- The end of a slice whose poll has no reset ticks once, clears `dirty`, uses the poll up and refills the slice
(R271). -/
theorem endSlice_frame {s : State} (hreset : NoResetNext s) : endSlice s = { tick s with
    dirty := false, key := (endSlice s).key, runState := (endSlice s).runState, inbox := s.inbox.tail,
    stepsLeft := s.params.stepsPerSlice } := by
  have hnext : NoResetNext (present (tick s)) := noResetNext_congr (by simp) hreset
  rw [endSlice, pollInput_frame hnext]
  simp [present_eq]

/-- Settles O48: the slice's steps (`runFor_slice`), then its end (`endSlice_frame`, `endSlice_delivered`). -/
theorem oneTickPerSlice : Obligations.OneTickPerSlice := by
  intro s hrun hreset
  obtain ⟨u, hu, hurun, huleft, hukey, hutone, huinbox, huparams⟩ := runFor_slice hrun rfl
  have hnext : NoResetNext u := noResetNext_congr huinbox hreset
  have hfinal := endSlice_frame hnext
  refine ⟨u, endSlice u, hu, hurun.trans hrun, huleft, hukey, hutone, huinbox, huparams,
    step_of_sliceEnd (hurun.trans hrun) huleft, by rw [hfinal], ?_, ?_, endSlice_delivered hnext, fun hsafe => ?_, ?_⟩
  · rw [hfinal, huparams]
  · rw [hfinal, huinbox]
  · rw [hfinal]
    exact ⟨toNat_tick_DT hsafe, toNat_tick_ST hsafe, tick_tone hsafe⟩
  · rw [hfinal]
    simp

end Sys2Proof.Machine
end

section
/-! PROOFS. The reset event (70_reset_and_hazards.md): the image it leaves in memory, read in its three parts, and the
value of every other block element. -/

namespace Sys2Proof.Machine

open Sys2Proof.Spec

/-! ### The image in memory -/

section ImageMemory

variable (font : Vector Byte 80) {rom : List Byte} (hrom : rom.length ≤ 3584)

include hrom

/-- Outside the ROM's bytes the image is the FONT written over empty memory: the ROM starts above the FONT. -/
theorem read_imageMemory_outside_rom {a : Nat} (ha : a < 0x200 ∨ 0x200 + rom.length ≤ a) :
    (imageMemory font rom).read a = (Memory.writeBytes [] 0 font.toList).read a :=
  read_writeBytes_outside (by omega) ha

/-- The FONT stands at 0x000 (R51, R280). -/
theorem read_imageMemory_font {a : Nat} (ha : a < 80) : (imageMemory font rom).read a = font[a] := by
  have hfont := read_writeBytes_inside (m := []) (a := 0) (k := a) (bs := font.toList) (by simp) (by simpa using ha)
  rw [Nat.zero_add] at hfont
  rw [read_imageMemory_outside_rom font hrom (by omega), hfont, Vector.getElem_toList]

/-- The ROM stands at 0x200 (R51, R280). -/
theorem read_imageMemory_rom {k : Nat} (hk : k < rom.length) : (imageMemory font rom).read (0x200 + k) = rom[k] :=
  read_writeBytes_inside (by omega) hk

/-- Beside the FONT and the ROM memory is zero: an address from 80 up that nothing was written to reads as 0 (R38). -/
theorem read_imageMemory_elsewhere {a : Nat} (hfont : 80 ≤ a) (ha : a < 0x200 ∨ 0x200 + rom.length ≤ a) :
    (imageMemory font rom).read a = 0 := by
  rw [read_imageMemory_outside_rom font hrom ha, read_writeBytes_outside (by simp) (by simp [hfont]), Memory.read,
    Memory.blank, dif_neg (by omega)]

end ImageMemory

/-! ### The block after a reset -/

theorem blockReset_reg (s : State) (r : RegIdx) : (blockReset s).reg r = 0 := Vector.getElem_replicate r.isLt

theorem blockReset_stack_entry (s : State) {k : Nat} (hk : k < 12) : (blockReset s).stack[k] = 0 :=
  Vector.getElem_replicate hk

theorem blockReset_keyDown (s : State) (k : KeyIdx) : (blockReset s).keyDown k = false := Vector.getElem_replicate k.isLt

theorem blockReset_hostHeld (s : State) : HostHeld s (blockReset s) := ⟨rfl, rfl, rfl, rfl, rfl, rfl⟩

/-- Settles O53: memory is the image of the parameters, read in its three parts. -/
theorem resetReinitialisesBlock : Obligations.ResetReinitialisesBlock := by
  intro s hwf
  obtain ⟨hrom, -⟩ := hwf
  exact ⟨blockReset_reg s, rfl, rfl, rfl, fun _ => blockReset_stack_entry s, rfl, rfl,
    fun k _ => cell_clear k, blockReset_keyDown s,
    fun _ => read_imageMemory_font s.params.font hrom,
    fun _ => read_imageMemory_rom s.params.font hrom,
    fun _ hfont _ => read_imageMemory_elsewhere s.params.font hrom hfont,
    rfl, rfl, rfl, blockReset_hostHeld s, handleSignal_reset⟩

end Sys2Proof.Machine
end

section
/-! PROOFS. The representation: an instruction and its word, memory and its canonical form, and the machine that a reset
leaves. Canonical memory holds exactly the cells whose byte is read and is not blank (`mem_iff_read`), so what is read
decides the list; byte writes keep the form (`writeBytes_wf`), and a step writes memory by them alone. -/

namespace Sys2Proof.Machine

open Sys2Proof.Laws

/-! ### Decoding an encoded instruction -/

/-- Each constructor's word, taken apart into its fields, dispatches back to the constructor. -/
theorem roundTrip (i : Instr) : RoundTrip.Statement i := by
  cases i with
  | cls pad => exact RoundTrip.cls pad
  | ret pad => exact RoundTrip.ret pad
  | sys nnn => exact RoundTrip.sys nnn
  | jp nnn => exact RoundTrip.jp nnn
  | call nnn => exact RoundTrip.call nnn
  | seImm x nn => exact RoundTrip.seImm x nn
  | sneImm x nn => exact RoundTrip.sneImm x nn
  | seReg x y pad => exact RoundTrip.seReg x y pad
  | ldImm x nn => exact RoundTrip.ldImm x nn
  | addImm x nn => exact RoundTrip.addImm x nn
  | ldReg x y => exact RoundTrip.ldReg x y
  | orReg x y => exact RoundTrip.orReg x y
  | andReg x y => exact RoundTrip.andReg x y
  | xorReg x y => exact RoundTrip.xorReg x y
  | addReg x y => exact RoundTrip.addReg x y
  | subReg x y => exact RoundTrip.subReg x y
  | shr x y => exact RoundTrip.shr x y
  | subnReg x y => exact RoundTrip.subnReg x y
  | shl x y => exact RoundTrip.shl x y
  | undef8XY8 x y => exact RoundTrip.undef8XY8 x y
  | undef8XY9 x y => exact RoundTrip.undef8XY9 x y
  | undef8XYA x y => exact RoundTrip.undef8XYA x y
  | undef8XYB x y => exact RoundTrip.undef8XYB x y
  | undef8XYC x y => exact RoundTrip.undef8XYC x y
  | undef8XYD x y => exact RoundTrip.undef8XYD x y
  | undef8XYF x y => exact RoundTrip.undef8XYF x y
  | sneReg x y pad => exact RoundTrip.sneReg x y pad
  | ldI nnn => exact RoundTrip.ldI nnn
  | jpV0 nnn => exact RoundTrip.jpV0 nnn
  | rnd x nn => exact RoundTrip.rnd x nn
  | drw x y n => exact RoundTrip.drw x y n
  | skp x => exact RoundTrip.skp x
  | sknp x => exact RoundTrip.sknp x
  | undefE x nn => exact RoundTrip.undefE x nn
  | ldVxDT x => exact RoundTrip.ldVxDT x
  | ldVxK x => exact RoundTrip.ldVxK x
  | ldDTVx x => exact RoundTrip.ldDTVx x
  | ldSTVx x => exact RoundTrip.ldSTVx x
  | addI x => exact RoundTrip.addI x
  | ldF x => exact RoundTrip.ldF x
  | ldB x => exact RoundTrip.ldB x
  | store x => exact RoundTrip.store x
  | load x => exact RoundTrip.load x
  | undefF x nn => exact RoundTrip.undefF x nn

/-- Settles O1, for each constructor (`roundTrip`). -/
theorem decodeInvertsEncode : Obligations.DecodeInvertsEncode := roundTrip

/-- Settles O5: each word is split into its fields and dispatched on. -/
theorem sampleWordsDecode : Obligations.SampleWordsDecode := by
  unfold Obligations.SampleWordsDecode
  decide

/-! ### Canonical memory is what is read -/

/-- A byte that is not blank is read from a cell of the list. -/
theorem mem_of_read_ne_blank {m : Memory} {a : Nat} (h : m.read a ≠ Memory.blank a) : (a, m.read a) ∈ m := by
  induction m with
  | nil => exact absurd rfl h
  | cons c m ih =>
    obtain ⟨k, b⟩ := c
    rw [Memory.read] at h ⊢
    split_ifs at h ⊢ with hk
    · exact hk ▸ List.mem_cons_self
    · exact List.mem_cons_of_mem _ (ih h)

/-- In a list with rising addresses no cell hides a later one. -/
theorem read_of_mem {m : Memory} (hm : m.Pairwise fun c d => c.1 < d.1) {c : Host.Cell} (hc : c ∈ m) :
    m.read c.1 = c.2 := by
  induction m with
  | nil => cases hc
  | cons d m ih =>
    obtain ⟨hd, hm⟩ := List.pairwise_cons.1 hm
    obtain rfl | hc := List.mem_cons.1 hc
    · exact if_pos rfl
    · exact (if_neg (hd c hc).ne).trans (ih hm hc)

/-- The cells of a canonical memory are the bytes it reads that are not blank. -/
theorem mem_iff_read {m : Memory} (hm : m.wf) (c : Host.Cell) :
    c ∈ m ↔ m.read c.1 = c.2 ∧ c.2 ≠ Memory.blank c.1 := by
  obtain ⟨hrising, hcells⟩ := hm
  constructor
  · intro hc
    obtain ⟨-, hblank⟩ := hcells c hc
    exact ⟨read_of_mem hrising hc, hblank⟩
  · rintro ⟨hread, hblank⟩
    have hc := mem_of_read_ne_blank (hread.trans_ne hblank)
    rwa [hread] at hc

/-- Settles O55: the two hold the same cells (`mem_iff_read`), and in rising order there is one list of them. -/
theorem canonicalMemoryIsUnique : Obligations.CanonicalMemoryIsUnique := by
  intro m m' hm hm' hread
  have hcells : ∀ c, c ∈ m ↔ c ∈ m' := fun c => by
    rw [mem_iff_read hm, mem_iff_read hm', hread]
  obtain ⟨hrising, -⟩ := hm
  obtain ⟨hrising', -⟩ := hm'
  exact List.Pairwise.eq_of_mem_iff (r := InvImage (· < ·) Prod.fst) hrising hrising' hcells

/-! ### Memory stays canonical -/

theorem imageMemory_wf (font : Vector Byte 80) (rom : List Byte) : (imageMemory font rom).wf :=
  writeBytes_wf _ _ _ (writeBytes_wf _ _ _ nil_wf)

theorem blockReset_memoryCanonical (s : State) : (blockReset s).MemoryCanonical := imageMemory_wf _ _

theorem memoryCanonical_congr {s t : State} (hmem : t.mem = s.mem) (h : s.MemoryCanonical) : t.MemoryCanonical := by
  rw [State.MemoryCanonical, hmem]
  exact h

/-- FX33 and FX55 write bytes one by one, and no other effect writes memory (R50). -/
theorem effect_memoryCanonical (i : Instr) {s : State} (h : s.MemoryCanonical) : (effect i s).MemoryCanonical := by
  cases i with
  | ldB x => exact writeBytes_wf _ _ _ h
  | store x => exact writeBytes_wf _ _ _ h
  | _ => exact memoryCanonical_congr (effect_mem s (by simp) (by simp)) h

/-- A `step` event that records a fault leaves memory (R243); one that does not has its instruction's effect. -/
theorem blockStep_memoryCanonical {s t : State} (h : s.MemoryCanonical) (ht : blockStep s = .next t) :
    t.MemoryCanonical := by
  cases hs : s.fault with
  | some f =>
    cases (blockStep_of_faulted hs).symm.trans ht
    exact h
  | none =>
    cases hf : stepFault s with
    | some f =>
      cases (blockStep_of_stepFault hs hf).symm.trans ht
      exact h
    | none =>
      cases (blockStep_of_noStepFault hs hf).symm.trans ht
      exact effect_memoryCanonical _ (s := s.advancePc) h

/-- Settles O57: of the events of a step, only the block's `step` event and a reset write memory. -/
theorem stepKeepsMemoryCanonical : Obligations.StepKeepsMemoryCanonical := by
  intro s t h ht
  refine step_keeps (fun hst hs => ?_) (fun _ => blockReset_memoryCanonical _) blockStep_memoryCanonical h ht
  rw [hst]
  exact hs

/-! ### The created machine -/

/-- Settles O56: what a block reset leaves meets each of them, whatever the parameters. -/
theorem createdMachineMeetsInvariants : Obligations.CreatedMachineMeetsInvariants := fun _ _ =>
  ⟨blockReset_memoryCanonical _, faultRecordCurrent_of_safe rfl, blockReset_pcBounded _⟩

/-- The image of the default FONT and no ROM is empty memory: the two are canonical and read the same (log entry 2). -/
theorem imageMemory_default : imageMemory Config.font [] = [] := by
  refine canonicalMemoryIsUnique _ _ (imageMemory_wf _ _) nil_wf fun a => ?_
  rw [Memory.read, Memory.blank]
  split_ifs with ha
  · exact read_imageMemory_font Config.font (Nat.zero_le _) ha
  · exact read_imageMemory_elsewhere Config.font (Nat.zero_le _) (by omega) (Nat.lt_or_ge a 0x200)

/-- Settles O54: the two differ at most in memory, which is empty in both (`imageMemory_default`). -/
theorem resetStateIsCreated : Obligations.ResetStateIsCreated := by
  refine ⟨?_, rfl, rfl⟩
  have hmem : imageMemory Params.default.font Params.default.rom = [] := imageMemory_default
  rw [State.create, blockReset, hmem]
  rfl

end Sys2Proof.Machine
end
